-- ==== Sys2Proof/Word.lean ====
section
/-! DEFINITION. The words of the machine (spec/00_scope.md R9, spec/10_state.md, spec/30_encoding.md R81):
every value is unsigned, there is no signed operation and no sign extension. -/

namespace Sys2Proof

/-- A byte: a general register, a memory cell, an 8-bit immediate, a timer (R20, R31, R32, R36). -/
abbrev Byte := BitVec 8

/-- A 16-bit word: `pc`, `I`, a stack entry, an instruction word (R23, R24, R27, R80). -/
abbrev Word := BitVec 16

/-- The 12-bit address field `nnn` of an instruction (R81). -/
abbrev Addr12 := BitVec 12

/-- The index of a general register, `x` or `y` of an instruction: V0 to VF, all of them reachable (R20). -/
abbrev Reg := Fin 16

/-- VF, the register that also holds the flags (R21). -/
abbrev vF : Reg := 15

/-- A key code 0x0 to 0xF (R35). -/
abbrev Key := BitVec 4

end Sys2Proof
end

