-- ==== Sys2Proof/Config.lean ====
section
/-! DEFINITION. What is fixed for this hardware (spec/00_scope.md R7) and the values the spec leaves open. -/

namespace Sys2Proof

/-- `SYS_POLICY`: what a `0NNN` word other than 00E0 and 00EE is (R7, R86, R101). -/
inductive SysPolicy where
  | nop
  | fault
  deriving DecidableEq, Repr

/-- `SHIFT_SOURCE`: which register 8XY6 and 8XYE shift (R7, R150, R152). -/
inductive ShiftSource where
  | vx
  | vy
  deriving DecidableEq, Repr

/-- The policy parameters of R7 that have an alternative. -/
structure Params where
  sysPolicy : SysPolicy
  shiftSource : ShiftSource
  loadStoreIncrementsI : Bool
  deriving DecidableEq, Repr

/-- The values R7 fixes for this hardware (the spec's decisions D5, D10, D11; log entry 9). -/
def Config.hardware : Params :=
  { sysPolicy := .nop, shiftSource := .vx, loadStoreIncrementsI := false }

/-- `MEM_SIZE`: addresses 0x000 to 0xFFF (R7, R50). -/
@[reducible, simp] def Config.memSize : Nat := 4096

/-- `PROGRAM_START`, the reset value of `pc` and the load address (R7, R24, R278). -/
@[reducible, simp] def Config.programStart : Nat := 0x200

/-- `MAX_ROM`: the longest program a load accepts (R7, R278). -/
@[reducible, simp] def Config.maxRom : Nat := 3584

/-- `FONT_GLYPH_BYTES` (R7, R173). -/
@[reducible, simp] def Config.fontGlyphBytes : Nat := 5

/-- `FONT`: the 80 bytes at 0x000 to 0x04F, one glyph a line (R38; the spec's decision D22, log entry 11). -/
def Config.font : List Byte :=
  [0xF0, 0x90, 0x90, 0x90, 0xF0] ++ [0x20, 0x60, 0x20, 0x20, 0x70] ++
  [0xF0, 0x10, 0xF0, 0x80, 0xF0] ++ [0xF0, 0x10, 0xF0, 0x10, 0xF0] ++
  [0x90, 0x90, 0xF0, 0x10, 0x10] ++ [0xF0, 0x80, 0xF0, 0x10, 0xF0] ++
  [0xF0, 0x80, 0xF0, 0x90, 0xF0] ++ [0xF0, 0x10, 0x20, 0x40, 0x40] ++
  [0xF0, 0x90, 0xF0, 0x90, 0xF0] ++ [0xF0, 0x90, 0xF0, 0x10, 0xF0] ++
  [0xF0, 0x90, 0xF0, 0x90, 0x90] ++ [0xE0, 0x90, 0xE0, 0x90, 0xE0] ++
  [0xF0, 0x80, 0x80, 0x80, 0xF0] ++ [0xE0, 0x90, 0x90, 0x90, 0xE0] ++
  [0xF0, 0x80, 0xF0, 0x80, 0xF0] ++ [0xF0, 0x80, 0xF0, 0x80, 0x80]

/-- The `n`-th random byte the environment hands to CXKK: FREE, any value, no law between draws (R37, R153, D19;
log entry 1). -/
opaque Config.draw : Nat → Byte

/-- Which of the 2^32 - 1 non-zero colours the foreground is: FREE (R7 `FG_COLOR` OPEN; log entry 5). -/
opaque Config.fgColorIndex : Fin 4294967295

/-- `FG_COLOR`: some 32-bit value other than 0, no particular one (R7, R195). -/
def Config.fgColor : BitVec 32 := BitVec.ofNat 32 (Config.fgColorIndex.val + 1)

/-- `BG_COLOR` (R7, R195). -/
def Config.bgColor : BitVec 32 := 0x00000000

/-- `FALLBACK_COLOR`: FREE, and never produced (R7, R197; log entry 5). -/
opaque Config.fallbackColor : BitVec 32

end Sys2Proof
end

