-- ==== Sys2Proof/Syntax.lean ====
section
/-! DEFINITION. The 35 instructions, one constructor per row of spec/opcode_table.json (spec/30_encoding.md R85),
with the operands the row's fields give. The low nibble of 5XYN and 9XYN is no operand: it is not decoded and
execution ignores it (R88, R93; log entry 13). -/

namespace Sys2Proof

/-- One instruction with its operands. -/
inductive Instr where
  /-- `0NNN` SYS nnn (R101) -/
  | sys (nnn : Addr12)
  /-- `00E0` CLS (R198) -/
  | cls
  /-- `00EE` RET (R102) -/
  | ret
  /-- `1NNN` JP nnn (R103) -/
  | jp (nnn : Addr12)
  /-- `2NNN` CALL nnn (R104) -/
  | call (nnn : Addr12)
  /-- `3XKK` SE Vx, kk (R121) -/
  | seImm (x : Reg) (kk : Byte)
  /-- `4XKK` SNE Vx, kk (R122) -/
  | sneImm (x : Reg) (kk : Byte)
  /-- `5XYN` SE Vx, Vy (R123) -/
  | seReg (x y : Reg)
  /-- `6XKK` LD Vx, kk (R142) -/
  | ldImm (x : Reg) (kk : Byte)
  /-- `7XKK` ADD Vx, kk (R143) -/
  | addImm (x : Reg) (kk : Byte)
  /-- `8XY0` LD Vx, Vy (R144) -/
  | ldReg (x y : Reg)
  /-- `8XY1` OR Vx, Vy (R145) -/
  | orReg (x y : Reg)
  /-- `8XY2` AND Vx, Vy (R146) -/
  | andReg (x y : Reg)
  /-- `8XY3` XOR Vx, Vy (R147) -/
  | xorReg (x y : Reg)
  /-- `8XY4` ADD Vx, Vy (R148) -/
  | addReg (x y : Reg)
  /-- `8XY5` SUB Vx, Vy (R149) -/
  | sub (x y : Reg)
  /-- `8XY6` SHR Vx, with Vy in the word (R150) -/
  | shr (x y : Reg)
  /-- `8XY7` SUBN Vx, Vy (R151) -/
  | subn (x y : Reg)
  /-- `8XYE` SHL Vx, with Vy in the word (R152) -/
  | shl (x y : Reg)
  /-- `9XYN` SNE Vx, Vy (R124) -/
  | sneReg (x y : Reg)
  /-- `ANNN` LD I, nnn (R171) -/
  | ldI (nnn : Addr12)
  /-- `BNNN` JP V0, nnn (R105) -/
  | jpV0 (nnn : Addr12)
  /-- `CXKK` RND Vx, kk (R153) -/
  | rnd (x : Reg) (kk : Byte)
  /-- `DXYN` DRW Vx, Vy, n (R199); `n` is a count of rows, 0 to 15 -/
  | drw (x y : Reg) (n : Fin 16)
  /-- `EX9E` SKP Vx (R218) -/
  | skp (x : Reg)
  /-- `EXA1` SKNP Vx (R219) -/
  | sknp (x : Reg)
  /-- `FX07` LD Vx, DT (R215) -/
  | ldXDT (x : Reg)
  /-- `FX0A` LD Vx, K (R220) -/
  | ldXK (x : Reg)
  /-- `FX15` LD DT, Vx (R216) -/
  | ldDTX (x : Reg)
  /-- `FX18` LD ST, Vx (R217) -/
  | ldSTX (x : Reg)
  /-- `FX1E` ADD I, Vx (R172) -/
  | addI (x : Reg)
  /-- `FX29` LD F, Vx (R173) -/
  | ldF (x : Reg)
  /-- `FX33` LD B, Vx (R174) -/
  | ldB (x : Reg)
  /-- `FX55` LD [I], Vx (R175) -/
  | ldMemX (x : Reg)
  /-- `FX65` LD Vx, [I] (R176) -/
  | ldXMem (x : Reg)
  deriving DecidableEq, Repr

end Sys2Proof
end

