-- ==== Sys2Proof/WellFormed.lean ====
section
/-! DEFINITION. Which terms of `Instr` are instructions of the machine. The types already bound every field
(R81); what is left is SYS: its two excluded words are CLS and RET (R92), and the whole row is illegal when
`SYS_POLICY = fault` (R86). -/

namespace Sys2Proof

/-- Is the term an instruction, under a policy for SYS? -/
def Instr.wellFormedWith (policy : SysPolicy) : Instr → Bool
  | .sys nnn => (policy == .nop) && (nnn != 0x0E0#12) && (nnn != 0x0EE#12)
  | .cls | .ret | .jp _ | .call _ | .seImm _ _ | .sneImm _ _ | .seReg _ _ | .ldImm _ _ | .addImm _ _
  | .ldReg _ _ | .orReg _ _ | .andReg _ _ | .xorReg _ _ | .addReg _ _ | .sub _ _ | .shr _ _ | .subn _ _
  | .shl _ _ | .sneReg _ _ | .ldI _ | .jpV0 _ | .rnd _ _ | .drw _ _ _ | .skp _ | .sknp _ | .ldXDT _
  | .ldXK _ | .ldDTX _ | .ldSTX _ | .addI _ | .ldF _ | .ldB _ | .ldMemX _ | .ldXMem _ => true

/-- Is the term an instruction of this hardware? -/
def Instr.wellFormed (i : Instr) : Bool := i.wellFormedWith Config.hardware.sysPolicy

end Sys2Proof
end

