-- ==== Sys2Proof/Decode.lean ====
section
/-! DEFINITION. Decoding (spec/30_encoding.md R80-R93) and, after it, encoding, written from the same opcode map
(R85). Decoding is total on bytes and on words and rejects by name. -/

namespace Sys2Proof

/-- `zext_16` of a 12-bit address (R83). -/
def zext16 (nnn : Addr12) : Word := nnn.setWidth 16

/-- `zext_8` of a key code (R220). -/
def zext8 (k : Key) : Byte := k.setWidth 8

/-- The big-endian word of two bytes, `(hi << 8) | lo` (R54). -/
def wordOfBytes (hi lo : Byte) : Word := hi ++ lo

/-- The byte of a word at the lower address (R54, R80). -/
def highByte (w : Word) : Byte := w.extractLsb' 8 8

/-- The byte of a word at the higher address (R54, R80). -/
def lowByte (w : Word) : Byte := w.extractLsb' 0 8

/-- Why bytes are no instruction (R86), by family; `truncated`: fewer than two bytes. -/
inductive DecodeReject where
  | illegalFamily0
  | illegalFamily8
  | illegalFamilyE
  | illegalFamilyF
  | truncated
  deriving DecidableEq, Repr

/-- `f = op[15:12]`, the family (R81). -/
def fieldF (op : Word) : Fin 16 := (op.extractLsb' 12 4).toFin

/-- `x = op[11:8]` (R81). -/
def fieldX (op : Word) : Reg := (op.extractLsb' 8 4).toFin

/-- `y = op[7:4]` (R81). -/
def fieldY (op : Word) : Reg := (op.extractLsb' 4 4).toFin

/-- `n = op[3:0]` (R81). -/
def fieldN (op : Word) : Fin 16 := (op.extractLsb' 0 4).toFin

/-- `kk = op[7:0]` (R81). -/
def fieldKK (op : Word) : Byte := op.extractLsb' 0 8

/-- `nnn = op[11:0]` (R81). -/
def fieldNNN (op : Word) : Addr12 := op.extractLsb' 0 12

/-- Family 0, matched on the whole word (R91, R92). -/
def decodeFamily0 (policy : SysPolicy) (op : Word) : Except DecodeReject Instr :=
  if op = 0x00E0#16 then .ok .cls
  else if op = 0x00EE#16 then .ok .ret
  else
    match policy with
    | .nop => .ok (.sys (fieldNNN op))
    | .fault => .error .illegalFamily0

/-- Family 8, selected by the low nibble (R84, R91). -/
def decodeFamily8 (op : Word) : Except DecodeReject Instr :=
  match (fieldN op).val with
  | 0 => .ok (.ldReg (fieldX op) (fieldY op))
  | 1 => .ok (.orReg (fieldX op) (fieldY op))
  | 2 => .ok (.andReg (fieldX op) (fieldY op))
  | 3 => .ok (.xorReg (fieldX op) (fieldY op))
  | 4 => .ok (.addReg (fieldX op) (fieldY op))
  | 5 => .ok (.sub (fieldX op) (fieldY op))
  | 6 => .ok (.shr (fieldX op) (fieldY op))
  | 7 => .ok (.subn (fieldX op) (fieldY op))
  | 14 => .ok (.shl (fieldX op) (fieldY op))
  | _ => .error .illegalFamily8

/-- Family E, selected by the low byte (R84, R91). -/
def decodeFamilyE (op : Word) : Except DecodeReject Instr :=
  match (fieldKK op).toNat with
  | 0x9E => .ok (.skp (fieldX op))
  | 0xA1 => .ok (.sknp (fieldX op))
  | _ => .error .illegalFamilyE

/-- Family F, selected by the low byte (R84, R91). -/
def decodeFamilyF (op : Word) : Except DecodeReject Instr :=
  match (fieldKK op).toNat with
  | 0x07 => .ok (.ldXDT (fieldX op))
  | 0x0A => .ok (.ldXK (fieldX op))
  | 0x15 => .ok (.ldDTX (fieldX op))
  | 0x18 => .ok (.ldSTX (fieldX op))
  | 0x1E => .ok (.addI (fieldX op))
  | 0x29 => .ok (.ldF (fieldX op))
  | 0x33 => .ok (.ldB (fieldX op))
  | 0x55 => .ok (.ldMemX (fieldX op))
  | 0x65 => .ok (.ldXMem (fieldX op))
  | _ => .error .illegalFamilyF

/-- `decode(op)` of R91, for either value of `SYS_POLICY`. The last arm is family F, the one value of a 4-bit
field that is left. -/
def decodeWith (policy : SysPolicy) (op : Word) : Except DecodeReject Instr :=
  match (fieldF op).val with
  | 0 => decodeFamily0 policy op
  | 1 => .ok (.jp (fieldNNN op))
  | 2 => .ok (.call (fieldNNN op))
  | 3 => .ok (.seImm (fieldX op) (fieldKK op))
  | 4 => .ok (.sneImm (fieldX op) (fieldKK op))
  | 5 => .ok (.seReg (fieldX op) (fieldY op))
  | 6 => .ok (.ldImm (fieldX op) (fieldKK op))
  | 7 => .ok (.addImm (fieldX op) (fieldKK op))
  | 8 => decodeFamily8 op
  | 9 => .ok (.sneReg (fieldX op) (fieldY op))
  | 10 => .ok (.ldI (fieldNNN op))
  | 11 => .ok (.jpV0 (fieldNNN op))
  | 12 => .ok (.rnd (fieldX op) (fieldKK op))
  | 13 => .ok (.drw (fieldX op) (fieldY op) (fieldN op))
  | 14 => decodeFamilyE op
  | _ => decodeFamilyF op

/-- `decode(op)` of this hardware (R91). -/
def decodeWord (op : Word) : Except DecodeReject Instr := decodeWith Config.hardware.sysPolicy op

/-- Decoding from the bytes as memory holds them: the first two are the instruction, high byte first (R80); the
rest is handed back. -/
def decodeBytes : List Byte → Except DecodeReject (Instr × List Byte)
  | hi :: lo :: rest =>
    match decodeWord (wordOfBytes hi lo) with
    | .ok i => .ok (i, rest)
    | .error e => .error e
  | [_] => .error .truncated
  | [] => .error .truncated

/-- The word of an opcode-table row, from the number that holds its `nbits` bits (bits above them are 0). -/
def tableWord (nbits w : Nat) : Word := BitVec.ofNat 16 (w % 2 ^ nbits)

/-- What the decoder reads from an opcode-table row's word, laid out in bytes as the hardware stores it. -/
def decodeTableWord (nbits w : Nat) : Option Instr :=
  match decodeBytes [highByte (tableWord nbits w), lowByte (tableWord nbits w)] with
  | .ok (i, _) => some i
  | .error _ => none

/-! ### Encoding -/

/-- A register index as the 4-bit field of a word. -/
def regField (x : Fin 16) : BitVec 4 := BitVec.ofFin x

/-- Format ADDR (R82): family and address. -/
def formatAddr (f : BitVec 4) (nnn : Addr12) : Word := f ++ nnn

/-- Format RIMM, and RFN with the function byte as `kk` (R82). -/
def formatRImm (f : BitVec 4) (x : Reg) (kk : Byte) : Word := f ++ regField x ++ kk

/-- Formats RR and DRAW (R82): two registers and a low nibble. -/
def formatRR (f : BitVec 4) (x y : Reg) (n : BitVec 4) : Word := f ++ regField x ++ regField y ++ n

/-- The word of an instruction (R82, R85). For 5XYN and 9XYN the ignored nibble is written 0, the conventional
spelling (R93; log entry 13). -/
def encodeWord : Instr → Word
  | .sys nnn => formatAddr 0x0 nnn
  | .cls => 0x00E0#16
  | .ret => 0x00EE#16
  | .jp nnn => formatAddr 0x1 nnn
  | .call nnn => formatAddr 0x2 nnn
  | .seImm x kk => formatRImm 0x3 x kk
  | .sneImm x kk => formatRImm 0x4 x kk
  | .seReg x y => formatRR 0x5 x y 0x0
  | .ldImm x kk => formatRImm 0x6 x kk
  | .addImm x kk => formatRImm 0x7 x kk
  | .ldReg x y => formatRR 0x8 x y 0x0
  | .orReg x y => formatRR 0x8 x y 0x1
  | .andReg x y => formatRR 0x8 x y 0x2
  | .xorReg x y => formatRR 0x8 x y 0x3
  | .addReg x y => formatRR 0x8 x y 0x4
  | .sub x y => formatRR 0x8 x y 0x5
  | .shr x y => formatRR 0x8 x y 0x6
  | .subn x y => formatRR 0x8 x y 0x7
  | .shl x y => formatRR 0x8 x y 0xE
  | .sneReg x y => formatRR 0x9 x y 0x0
  | .ldI nnn => formatAddr 0xA nnn
  | .jpV0 nnn => formatAddr 0xB nnn
  | .rnd x kk => formatRImm 0xC x kk
  | .drw x y n => formatRR 0xD x y (regField n)
  | .skp x => formatRImm 0xE x 0x9E
  | .sknp x => formatRImm 0xE x 0xA1
  | .ldXDT x => formatRImm 0xF x 0x07
  | .ldXK x => formatRImm 0xF x 0x0A
  | .ldDTX x => formatRImm 0xF x 0x15
  | .ldSTX x => formatRImm 0xF x 0x18
  | .addI x => formatRImm 0xF x 0x1E
  | .ldF x => formatRImm 0xF x 0x29
  | .ldB x => formatRImm 0xF x 0x33
  | .ldMemX x => formatRImm 0xF x 0x55
  | .ldXMem x => formatRImm 0xF x 0x65

/-- The bytes of an instruction as memory holds them, high byte first (R80). -/
def encode (i : Instr) : List Byte := [highByte (encodeWord i), lowByte (encodeWord i)]

end Sys2Proof
end

