-- ==== Sys2Proof/Machine/State.lean ====
section
/-! DEFINITION. The machine's state (spec/10_state.md) as plain data, the reasons a step can stop, and reset. -/

namespace Sys2Proof.Machine

/-- The only ways a step has no next state. No instruction raises one: the faults of spec/60_exceptions.md R231 are
next states (`RunState.faulted` with a record). Both are stuck states of R252, "in `stopped` and `faulted` there is
no step". -/
inductive Fault where
  /-- Raised by `step` when the run has ended by STOP (R251, R252, R259). Safe: the hardware takes no step either. -/
  | runStopped
  /-- Raised by `step` when the run has ended by a fault (R230, R252, R259). Safe: the hardware takes no step
  either. -/
  | runFaulted
  deriving DecidableEq, Repr

/-- What the model declines to do. -/
inductive Refusal where
  /-- An instruction that has no meaning yet: no arm of `exec` answers it. Safe. -/
  | notModelled (mnemonic : String)
  /-- Raised by `State.load` for a program of more than 3584 bytes: "this spec refuses such a load (the model
  defines no run for it)" (R278). Safe. -/
  | programTooLong
  deriving DecidableEq, Repr

/-- The scheduler's states (R40, R252). -/
inductive RunState where
  | running
  | stopped
  | faulted
  deriving DecidableEq, Repr

/-- The fault kinds of R231. -/
inductive FaultKind where
  | decode
  | stackOverflow
  | stackUnderflow
  | memory
  deriving DecidableEq, Repr

/-- The fault record (R41): the kind, the address the instruction was fetched from, its word (absent for a fetch
fault), and for a memory fault the lowest out-of-range address, an unbounded number (R53). -/
structure FaultRecord where
  kind : FaultKind
  pcFetch : Word
  op : Option Word
  addr : Option Nat
  deriving DecidableEq, Repr

/-- The scheduler's events (R252). -/
inductive Event where
  | cycle
  | tick
  | sample (k : Option Key)
  | stop
  deriving DecidableEq, Repr

/-- A colour of the presentation plane, by name (R34, R195, R197); its 32-bit value is `Colour.word`
(log entry 5). -/
inductive Colour where
  | background
  | foreground
  | fallback
  deriving DecidableEq, Repr

/-- `WIDTH` x `HEIGHT` bits, `plane[y][x]` (R33, R190). -/
abbrev Plane := Vector (Vector Bool 64) 32

/-- `WIDTH` x `HEIGHT` colours, row-major (R34, R194, R254). -/
abbrev Frame := Vector (Vector Colour 64) 32

/-- The two planes of the pixel engine (R33, R34). -/
structure Display where
  plane : Plane
  present : Frame
  deriving DecidableEq, Repr

/-- Memory as the cells that differ from their reset contents, addresses strictly rising (R36; log entry 8). -/
abbrev Memory := List Host.Cell

/-- The whole state of the CORE. -/
structure State where
  /-- V0 to VF (R20); VF is the flags register (R21). -/
  v : Vector Byte 16
  /-- The index register `I` (R23). -/
  i : Word
  /-- The program counter (R24). -/
  pc : Word
  /-- `SP`, the number of stack entries in use, 0 to 16 (R27). -/
  sp : Fin 17
  /-- The 16 return addresses (R27). -/
  stack : Vector Word 16
  /-- The delay timer `DT` (R31). -/
  dt : Byte
  /-- The sound timer `ST` (R32). -/
  st : Byte
  /-- The logical and the presentation plane (R33, R34). -/
  display : Display
  /-- The input latch (R35). -/
  latch : Option Key
  /-- The 4096 bytes of memory (R36). -/
  mem : Memory
  /-- The scheduler's state (R40). -/
  runState : RunState
  /-- The fault record, when there is one (R41). -/
  fault : Option FaultRecord
  /-- The frame last pushed to the presentation collaborator (R254). -/
  frameOut : Frame
  /-- The MODEL's own: how many random bytes CXKK has drawn (R153; log entry 1). -/
  draws : Nat
  /-- The MODEL's own: the events the environment has scheduled next (R252; log entry 2). -/
  pending : List Event
  deriving DecidableEq, Repr

/-- A clear display: every pixel off, every colour the background (R42, R193). -/
def Display.blank : Display :=
  { plane := Vector.replicate 32 (Vector.replicate 64 false)
    present := Vector.replicate 32 (Vector.replicate 64 .background) }

/-- The state right after reset (R42, R270); the fields `frameOut`, `draws` and `pending` are log entries 6, 1
and 2. -/
def State.reset : State :=
  { v := Vector.replicate 16 0
    i := 0
    pc := 0x200
    sp := 0
    stack := Vector.replicate 16 0
    dt := 0
    st := 0
    display := Display.blank
    latch := none
    mem := []
    runState := .running
    fault := none
    frameOut := Display.blank.present
    draws := 0
    pending := [] }

end Sys2Proof.Machine
end

