-- ==== Sys2Proof/Machine/Ops.lean ====
section
/-! DEFINITION. The named operations of the blocks (spec/20_memory.md R60-R64 and the block rules they point to),
taking a fault (spec/60_exceptions.md R230), the scheduler's own events and the program load. Every instruction's
meaning is written over these. -/

namespace Sys2Proof.Machine

/-- What a meaning answers. -/
abbrev Result := Host.Outcome State Fault Refusal

/-! ### Registers -/

/-- `V[x]` (R11, R20). -/
def State.getV (s : State) (x : Reg) : Byte := s.v.get x

/-- `V[x] <- b` (R11, R20). -/
def State.setV (s : State) (x : Reg) (b : Byte) : State := { s with v := s.v.set x.val b x.isLt }

/-- `I <- w` (R11, R23). -/
def State.setI (s : State) (w : Word) : State := { s with i := w }

/-- `pc <- w` (R11, R24). -/
def State.setPc (s : State) (w : Word) : State := { s with pc := w }

/-- The state with other contents of memory (R36). -/
def State.setMem (s : State) (m : Memory) : State := { s with mem := m }

/-- The state with other planes (R33, R34). -/
def State.setDisplay (s : State) (d : Display) : State := { s with display := d }

/-- The state with another call stack (R27). -/
def State.setStack (s : State) (entries : Vector Word 16) (sp : Fin 17) : State :=
  { s with stack := entries, sp := sp }

/-! ### Memory -/

/-- What memory holds at an address after reset and so what an unlisted address reads as: the font at 0x000 to
0x04F, 0 elsewhere (R38, R42, R272; log entries 8 and 11). -/
def resetByte (a : Nat) : Byte := Config.font.getD a 0

/-- The byte of memory at an address, with no bound check: what was last written there, or its reset contents
(R58). -/
def Memory.byteAt : Memory → Nat → Byte
  | [], a => resetByte a
  | (b, w) :: m, a => if a = b then w else Memory.byteAt m a

/-- Put a byte at an address, with no bound check; the canonical form is kept. -/
def Memory.put : Memory → Nat → Byte → Memory
  | [], a, w => if w = resetByte a then [] else [(a, w)]
  | (b, u) :: m, a, w =>
    if a < b then (if w = resetByte a then (b, u) :: m else (a, w) :: (b, u) :: m)
    else if a = b then (if w = resetByte a then m else (a, w) :: m)
    else (b, u) :: Memory.put m a w

/-- The canonical form of a memory: addresses strictly rising and inside the address space, no cell equal to what an
unlisted address reads as. -/
abbrev Memory.wf (m : Memory) : Prop :=
  m.Pairwise (fun c d => c.1 < d.1) ∧ ∀ c ∈ m, c.1 < Config.memSize ∧ c.2 ≠ resetByte c.1

/-- The lowest address `>= 4096` among the `len` addresses from `base`, if there is one: the `addr` of a
MemoryFault (R52, R53, R170, R234). -/
def firstBadAddress (base len : Nat) : Option Nat :=
  if 0 < len ∧ Config.memSize ≤ base + len - 1 then some (max base Config.memSize) else none

/-- `MemRead(addr, 1)`: the byte, or the address of the MemoryFault (R11, R52, R60). -/
def Memory.read (m : Memory) (a : Nat) : Except Nat Byte :=
  if a < Config.memSize then .ok (m.byteAt a) else .error a

/-- `MemWrite(addr, 1, b)`: the memory, or the address of the MemoryFault (R11, R52, R60). -/
def Memory.write (m : Memory) (a : Nat) (b : Byte) : Except Nat Memory :=
  if a < Config.memSize then .ok (m.put a b) else .error a

/-- The `len` bytes from address `a`, ascending. -/
def Memory.bytesFrom (m : Memory) : Nat → Nat → List Byte
  | _, 0 => []
  | a, len + 1 => m.byteAt a :: Memory.bytesFrom m (a + 1) len

/-- Put bytes one at a time at ascending addresses (R54, R170). -/
def Memory.putBytes : Memory → Nat → List Byte → Memory
  | m, _, [] => m
  | m, a, b :: bs => Memory.putBytes (m.put a b) (a + 1) bs

/-- Read `len` bytes from `a` after checking every address (R170). -/
def Memory.readBlock (m : Memory) (a len : Nat) : Except Nat (List Byte) :=
  match firstBadAddress a len with
  | some bad => .error bad
  | none => .ok (m.bytesFrom a len)

/-- Write bytes from `a` after checking every address: all of them or none (R170, R236). -/
def Memory.writeBlock (m : Memory) (a : Nat) (bs : List Byte) : Except Nat Memory :=
  match firstBadAddress a bs.length with
  | some bad => .error bad
  | none => .ok (m.putBytes a bs)

/-- `fetch(a)`: two reads, high byte first (R54, R55). -/
def fetchWord (m : Memory) (a : Nat) : Except Nat Word :=
  match m.read a with
  | .error bad => .error bad
  | .ok hi =>
    match m.read (a + 1) with
    | .error bad => .error bad
    | .ok lo => .ok (wordOfBytes hi lo)

/-! ### The call stack -/

/-- Push a return address: `stack[SP] <- w`, then `SP <- SP + 1`; `none` when 16 entries are in use (R27, R104). -/
def State.push (s : State) (w : Word) : Option State :=
  if h : s.sp.val < 16 then
    some (s.setStack (s.stack.set s.sp.val w h) ⟨s.sp.val + 1, by omega⟩)
  else none

/-- Pop a return address: `SP <- SP - 1`, then read `stack[SP]`; `none` when the stack is empty. The entry keeps its
value (R27, R28, R102). -/
def State.pop (s : State) : Option (Word × State) :=
  if h : 0 < s.sp.val then
    some (s.stack[s.sp.val - 1]'(by omega), s.setStack s.stack ⟨s.sp.val - 1, by omega⟩)
  else none

/-! ### Taking a fault -/

/-- The code of a fault kind (R231). -/
def FaultKind.code : FaultKind → Nat
  | .decode => 1
  | .stackOverflow => 2
  | .stackUnderflow => 3
  | .memory => 4

/-- `raise F(info)`: the run is faulted and the record says why; nothing else changes (R230, R235, R236). The CORE has
no return from a fault (R238). -/
def State.raise (s : State) (r : FaultRecord) : State := { s with runState := .faulted, fault := some r }

/-- `raise` in the execute phase of an instruction: `pc` already stands past it, so it was fetched from `pc - 2`, and
its word is the instruction's own (R41, R87, R235; log entry 4). -/
def State.raiseExec (s : State) (ins : Instr) (kind : FaultKind) (addr : Option Nat) : State :=
  s.raise { kind := kind, pcFetch := s.pc - 2, op := some (encodeWord ins), addr := addr }

/-! ### The pixel engine -/

/-- The colour function, by name (R195). -/
def colour (on : Bool) : Colour := if on then .foreground else .background

/-- The 32-bit value of a colour (R7, R195, R197). -/
def Colour.word : Colour → BitVec 32
  | .background => Config.bgColor
  | .foreground => Config.fgColor
  | .fallback => Config.fallbackColor

/-- `plane[y][x]`, the coordinates already reduced (R33). -/
def Display.pixel (d : Display) (y : Fin 32) (x : Fin 64) : Bool := (d.plane.get y).get x

/-- `present[y][x]`, the coordinates already reduced (R34). -/
def Display.shown (d : Display) (y : Fin 32) (x : Fin 64) : Colour := (d.present.get y).get x

/-- Set one pixel and its colour (R191, R195). -/
def Display.setPixel (d : Display) (y : Fin 32) (x : Fin 64) (on : Bool) : Display :=
  { plane := d.plane.set y.val ((d.plane.get y).set x.val on x.isLt) y.isLt
    present := d.present.set y.val ((d.present.get y).set x.val (colour on) x.isLt) y.isLt }

/-- The row `y mod HEIGHT` (R191). -/
def rowOf (y : Nat) : Fin 32 := ⟨y % 32, Nat.mod_lt y (by decide)⟩

/-- The column `x mod WIDTH` (R191). -/
def columnOf (x : Nat) : Fin 64 := ⟨x % 64, Nat.mod_lt x (by decide)⟩

/-- One turn of the loop of `draw_byte`: bit `7 - i` at column `x + i` (R191), with whether it erased (R192). -/
def Display.drawBit (d : Display) (x y : Nat) (byte : Byte) (i : Nat) : Display × Bool :=
  let bit := byte.getLsbD (7 - i)
  let old := d.pixel (rowOf y) (columnOf (x + i))
  (d.setPixel (rowOf y) (columnOf (x + i)) (xor old bit), bit && old)

/-- The loop of `draw_byte` over the bit positions of a list (R191, R192). -/
def Display.drawBits (d : Display) (x y : Nat) (byte : Byte) : List Nat → Display × Bool
  | [] => (d, false)
  | i :: is =>
    let first := d.drawBit x y byte i
    let rest := first.1.drawBits x y byte is
    (rest.1, first.2 || rest.2)

/-- `draw_byte(x, y, byte) -> erased` (R191, R192). -/
def Display.drawByte (d : Display) (x y : Nat) (byte : Byte) : Display × Bool :=
  d.drawBits x y byte [0, 1, 2, 3, 4, 5, 6, 7]

/-- The rows of a sprite, one `draw_byte` each at `y`, `y + 1`, … (R199). -/
def Display.drawRows (d : Display) (x : Nat) : Nat → List Byte → Display × Bool
  | _, [] => (d, false)
  | y, b :: bs =>
    let first := d.drawByte x y b
    let rest := first.1.drawRows x (y + 1) bs
    (rest.1, first.2 || rest.2)

/-- `clear()` (R193). -/
def Display.clear (_d : Display) : Display := Display.blank

/-- `snapshot()` (R194). -/
def Display.snapshot (d : Display) : Frame := d.present

/-! ### The timers and the input latch -/

/-- `decrement()` of one timer: saturating at 0 (R211). -/
def decrementTimer (t : Byte) : Byte := if 0 < t.toNat then t - 1 else t

/-- `get_delay()` (R63, R210). -/
def State.getDelay (s : State) : Byte := s.dt

/-- `set_delay(b)` (R63, R210). -/
def State.setDelay (s : State) (b : Byte) : State := { s with dt := b }

/-- `set_sound(b)` (R63, R210). -/
def State.setSound (s : State) (b : Byte) : State := { s with st := b }

/-- `sound_active` (R212, R255). -/
def State.soundActive (s : State) : Bool := s.st != 0

/-- `get_active()` (R213). -/
def State.activeKey (s : State) : Option Key := s.latch

/-- `is_pressed(key)` for the whole byte of a register: no byte above 0x0F matches (R213, R218). -/
def State.isPressed (s : State) (b : Byte) : Bool :=
  match s.activeKey with
  | some k => zext8 k == b
  | none => false

/-! ### The scheduler's own events -/

/-- `TICK`: `decrement()`, then `frame_out <- snapshot()` (R244). -/
def State.tick (s : State) : State :=
  { s with dt := decrementTimer s.dt, st := decrementTimer s.st, frameOut := s.display.snapshot }

/-- `SAMPLE(k)`: `set_active(k)` (R213, R214, R245). -/
def State.sample (s : State) (k : Option Key) : State := { s with latch := k }

/-- `STOP` (R251). -/
def State.stop (s : State) : State := { s with runState := .stopped }

/-- The event the environment has scheduled next; when it has scheduled none, a CYCLE (R252; log entry 2). -/
def State.nextEvent (s : State) : Event := s.pending.headD .cycle

/-- The state with the next event taken off the schedule. -/
def State.takeEvent (s : State) : State := { s with pending := s.pending.tail }

/-! ### The random source -/

/-- A fresh byte from the environment, and the state that has drawn it (R37, R153; log entry 1). -/
def State.drawRandom (s : State) : Byte × State := (Config.draw s.draws, { s with draws := s.draws + 1 })

/-! ### The program load -/

/-- `load(bytes)`, before the first event of the run (R278; log entry 7). -/
def State.load (s : State) (bytes : List Byte) : Result :=
  if bytes.length > Config.memSize - Config.programStart then .refused .programTooLong
  else .next (s.setMem (s.mem.putBytes Config.programStart bytes))

/-- Make the very next step a fetch from an address that holds a whole word (log entry 15). -/
def State.readyToFetch (s : State) : State :=
  { s with
    runState := .running
    fault := none
    pc := if s.pc.toNat + 1 < Config.memSize then s.pc else BitVec.ofNat 16 Config.programStart
    pending := if s.nextEvent = .cycle then s.pending else .cycle :: s.pending }

/-- Put a word at an address, high byte first (R80). -/
def Memory.putWord (m : Memory) (a : Nat) (w : Word) : Memory := m.putBytes a [highByte w, lowByte w]

end Sys2Proof.Machine
end

