-- ==== Sys2Proof/Machine/Flags.lean ====
section
/-! DEFINITION. The flag computations (spec/10_state.md R29, spec/42_alu.md R140, R141). VF is the only flag. -/

namespace Sys2Proof.Machine

/-- The value of VF for a condition: 1 or 0 (R29). -/
def flagByte (c : Bool) : Byte := if c then 1 else 0

/-- The carry of an addition: the sum exceeds 255 (R140, R148). -/
def carryOut (a b : Byte) : Bool := decide (a.toNat + b.toNat > 255)

/-- The not-borrow of `minuend - subtrahend`: strictly greater (R140, R149, R151). -/
def notBorrow (minuend subtrahend : Byte) : Bool := decide (minuend.toNat > subtrahend.toNat)

/-- The bit a right shift by one loses (R150). -/
def lostLow (b : Byte) : Bool := b.getLsbD 0

/-- The bit a left shift by one loses (R152). -/
def lostHigh (b : Byte) : Bool := b.getLsbD 7

/-- `a - b` as R140 computes it: `(a + 256 - b) mod 256`. -/
def wrappedDiff (a b : Byte) : Byte := BitVec.ofNat 8 (a.toNat + 256 - b.toNat)

/-- Write a flag to VF (R21). -/
def State.setFlag (s : State) (c : Bool) : State := s.setV vF (flagByte c)

/-- Write a result to Vx and then a flag to VF, in that order: when `x = F` the flag stays (R141). -/
def State.setResultAndFlag (s : State) (x : Reg) (result : Byte) (flag : Bool) : State :=
  (s.setV x result).setFlag flag

end Sys2Proof.Machine
end

