-- ==== Sys2Proof/Machine/Operands.lean ====
section
/-! DEFINITION. The operand forms beyond a plain register or immediate (spec/43_index_memory.md R170): registers as a
block, the BCD digits, the skip, the shifted operand. -/

namespace Sys2Proof.Machine

/-- `V[0] .. V[x]`, the bytes FX55 stores (R175). -/
def State.regsUpTo (s : State) (x : Reg) : List Byte := s.v.toList.take (x.val + 1)

/-- Load registers `V[k], V[k + 1], …` from bytes, one at a time (R176). -/
def State.loadRegsFrom : Nat → List Byte → State → State
  | _, [], s => s
  | k, b :: bs, s => State.loadRegsFrom (k + 1) bs (if h : k < 16 then s.setV ⟨k, h⟩ b else s)

/-- The three decimal digits of a byte, hundreds first (R174). -/
def bcdDigits (b : Byte) : List Byte :=
  [BitVec.ofNat 8 (b.toNat / 100), BitVec.ofNat 8 (b.toNat / 10 % 10), BitVec.ofNat 8 (b.toNat % 10)]

/-- `skip_if(c)`: 2 more on `pc` when the condition holds (R120). -/
def State.skipIf (s : State) (c : Bool) : State := if c then s.setPc (s.pc + 2) else s

/-- The operand 8XY6 and 8XYE shift (R150, R152). -/
def State.shiftOperand (s : State) (source : ShiftSource) (x y : Reg) : Byte :=
  match source with
  | .vx => s.getV x
  | .vy => s.getV y

/-- The optional increment of `I` after FX55 and FX65 (R175, R176). -/
def State.advanceI (s : State) (increments : Bool) (x : Reg) : State :=
  if increments then s.setI (BitVec.ofNat 16 (s.i.toNat + x.val + 1)) else s

/-- The address of a font glyph: the digit times 5 (R173). -/
def glyphAddress (digit : Byte) : Word := BitVec.ofNat 16 (digit.toNat * Config.fontGlyphBytes)

end Sys2Proof.Machine
end

