-- ==== Sys2Proof/Machine/Alu.lean ====
section
/-! DEFINITION. Register arithmetic and logic (spec/42_alu.md). Every source register is read before any register is
written (R141). -/

namespace Sys2Proof.Machine

/-- LD Vx, kk (R142). -/
def execLdImm (x : Reg) (kk : Byte) (s : State) : Result := .next (s.setV x kk)

/-- ADD Vx, kk: no flag (R143). -/
def execAddImm (x : Reg) (kk : Byte) (s : State) : Result := .next (s.setV x (s.getV x + kk))

/-- LD Vx, Vy (R144). -/
def execLdReg (x y : Reg) (s : State) : Result := .next (s.setV x (s.getV y))

/-- OR Vx, Vy: no flag (R145). -/
def execOrReg (x y : Reg) (s : State) : Result := .next (s.setV x (s.getV x ||| s.getV y))

/-- AND Vx, Vy: no flag (R146). -/
def execAndReg (x y : Reg) (s : State) : Result := .next (s.setV x (s.getV x &&& s.getV y))

/-- XOR Vx, Vy: no flag (R147). -/
def execXorReg (x y : Reg) (s : State) : Result := .next (s.setV x (s.getV x ^^^ s.getV y))

/-- ADD Vx, Vy: VF is the carry (R148). -/
def execAddReg (x y : Reg) (s : State) : Result :=
  .next (s.setResultAndFlag x (s.getV x + s.getV y) (carryOut (s.getV x) (s.getV y)))

/-- SUB Vx, Vy: VF is the not-borrow of Vx - Vy (R149). -/
def execSub (x y : Reg) (s : State) : Result :=
  .next (s.setResultAndFlag x (wrappedDiff (s.getV x) (s.getV y)) (notBorrow (s.getV x) (s.getV y)))

/-- SUBN Vx, Vy: VF is the not-borrow of Vy - Vx (R151). -/
def execSubn (x y : Reg) (s : State) : Result :=
  .next (s.setResultAndFlag x (wrappedDiff (s.getV y) (s.getV x)) (notBorrow (s.getV y) (s.getV x)))

/-- SHR for either value of `SHIFT_SOURCE` (R150). -/
def execShrWith (source : ShiftSource) (x y : Reg) (s : State) : Result :=
  .next (s.setResultAndFlag x (s.shiftOperand source x y >>> 1) (lostLow (s.shiftOperand source x y)))

/-- SHR Vx on this hardware (R7, R150). -/
def execShr (x y : Reg) (s : State) : Result := execShrWith Config.hardware.shiftSource x y s

/-- SHL for either value of `SHIFT_SOURCE` (R152). -/
def execShlWith (source : ShiftSource) (x y : Reg) (s : State) : Result :=
  .next (s.setResultAndFlag x (s.shiftOperand source x y <<< 1) (lostHigh (s.shiftOperand source x y)))

/-- SHL Vx on this hardware (R7, R152). -/
def execShl (x y : Reg) (s : State) : Result := execShlWith Config.hardware.shiftSource x y s

/-- RND Vx, kk: a fresh byte of the environment, masked (R153; log entry 1). -/
def execRnd (x : Reg) (kk : Byte) (s : State) : Result :=
  .next (s.drawRandom.2.setV x (s.drawRandom.1 &&& kk))

end Sys2Proof.Machine
end

