-- ==== Sys2Proof/Machine/Control.lean ====
section
/-! DEFINITION. Control transfer (spec/40_control.md). On entry `pc` is the instruction's address plus 2 (R13, R87;
log entry 18). -/

namespace Sys2Proof.Machine

/-- SYS nnn: nothing; `pc` stays (R101; the spec's decision D5, log entry 9). -/
def execSys (_nnn : Addr12) (s : State) : Result := .next s

/-- RET (R102). -/
def execRet (s : State) : Result :=
  match s.pop with
  | none => .next (s.raiseExec .ret .stackUnderflow none)
  | some (target, popped) => .next (popped.setPc target)

/-- JP nnn (R103). -/
def execJp (nnn : Addr12) (s : State) : Result := .next (s.setPc (zext16 nnn))

/-- CALL nnn: pushes `pc`, the address after the CALL (R104). -/
def execCall (nnn : Addr12) (s : State) : Result :=
  match s.push s.pc with
  | none => .next (s.raiseExec (.call nnn) .stackOverflow none)
  | some pushed => .next (pushed.setPc (zext16 nnn))

/-- JP V0, nnn: the sum is not reduced to 12 bits (R105). -/
def execJpV0 (nnn : Addr12) (s : State) : Result :=
  .next (s.setPc (zext16 nnn + (s.getV 0).setWidth 16))

end Sys2Proof.Machine
end

