-- ==== Sys2Proof/Machine/Draw.lean ====
section
/-! DEFINITION. The display instructions (spec/44_display.md R198, R199). -/

namespace Sys2Proof.Machine

/-- CLS (R198). -/
def execCls (s : State) : Result := .next (s.setDisplay s.display.clear)

/-- DRW Vx, Vy, n: the coordinates are read before VF is written; with `n = 0` nothing is drawn and VF is 0
(R199). -/
def execDrw (x y : Reg) (n : Fin 16) (s : State) : Result :=
  match s.mem.readBlock s.i.toNat n.val with
  | .error bad => .next (s.raiseExec (.drw x y n) .memory (some bad))
  | .ok rows =>
    let drawn := s.display.drawRows (s.getV x).toNat (s.getV y).toNat rows
    .next ((s.setDisplay drawn.1).setFlag drawn.2)

end Sys2Proof.Machine
end

