-- ==== Sys2Proof/Machine/IndexMemory.lean ====
section
/-! DEFINITION. The index register and the memory instructions (spec/43_index_memory.md). Every address is checked
before anything is read or written (R170, R236). -/

namespace Sys2Proof.Machine

/-- LD I, nnn (R171). -/
def execLdI (nnn : Addr12) (s : State) : Result := .next (s.setI (zext16 nnn))

/-- ADD I, Vx: wraps at 16 bits, no flag (R172). -/
def execAddI (x : Reg) (s : State) : Result := .next (s.setI (s.i + (s.getV x).setWidth 16))

/-- LD F, Vx: the whole byte, not masked (R173). -/
def execLdF (x : Reg) (s : State) : Result := .next (s.setI (glyphAddress (s.getV x)))

/-- LD B, Vx (R174). -/
def execLdB (x : Reg) (s : State) : Result :=
  match s.mem.writeBlock s.i.toNat (bcdDigits (s.getV x)) with
  | .error bad => .next (s.raiseExec (.ldB x) .memory (some bad))
  | .ok mem => .next (s.setMem mem)

/-- LD [I], Vx for either value of `LOADSTORE_INCREMENTS_I` (R175). -/
def execLdMemXWith (increments : Bool) (x : Reg) (s : State) : Result :=
  match s.mem.writeBlock s.i.toNat (s.regsUpTo x) with
  | .error bad => .next (s.raiseExec (.ldMemX x) .memory (some bad))
  | .ok mem => .next ((s.setMem mem).advanceI increments x)

/-- LD [I], Vx on this hardware (R7, R175). -/
def execLdMemX (x : Reg) (s : State) : Result := execLdMemXWith Config.hardware.loadStoreIncrementsI x s

/-- LD Vx, [I] for either value of `LOADSTORE_INCREMENTS_I` (R176). -/
def execLdXMemWith (increments : Bool) (x : Reg) (s : State) : Result :=
  match s.mem.readBlock s.i.toNat (x.val + 1) with
  | .error bad => .next (s.raiseExec (.ldXMem x) .memory (some bad))
  | .ok bytes => .next ((State.loadRegsFrom 0 bytes s).advanceI increments x)

/-- LD Vx, [I] on this hardware (R7, R176). -/
def execLdXMem (x : Reg) (s : State) : Result := execLdXMemWith Config.hardware.loadStoreIncrementsI x s

end Sys2Proof.Machine
end

