-- ==== Sys2Proof/Machine/Skips.lean ====
section
/-! DEFINITION. Conditional skips, on registers (spec/41_skips.md) and on the latched key (spec/45_timers_input.md
R218, R219). -/

namespace Sys2Proof.Machine

/-- SE Vx, kk (R121). -/
def execSeImm (x : Reg) (kk : Byte) (s : State) : Result := .next (s.skipIf (s.getV x == kk))

/-- SNE Vx, kk (R122). -/
def execSneImm (x : Reg) (kk : Byte) (s : State) : Result := .next (s.skipIf (s.getV x != kk))

/-- SE Vx, Vy (R123). -/
def execSeReg (x y : Reg) (s : State) : Result := .next (s.skipIf (s.getV x == s.getV y))

/-- SNE Vx, Vy (R124). -/
def execSneReg (x y : Reg) (s : State) : Result := .next (s.skipIf (s.getV x != s.getV y))

/-- SKP Vx (R218). -/
def execSkp (x : Reg) (s : State) : Result := .next (s.skipIf (s.isPressed (s.getV x)))

/-- SKNP Vx (R219). -/
def execSknp (x : Reg) (s : State) : Result := .next (s.skipIf (!s.isPressed (s.getV x)))

end Sys2Proof.Machine
end

