-- ==== Sys2Proof/Machine/TimersInput.lean ====
section
/-! DEFINITION. The timer and key instructions (spec/45_timers_input.md); the key skips are in Skips.lean. -/

namespace Sys2Proof.Machine

/-- LD Vx, DT (R215). -/
def execLdXDT (x : Reg) (s : State) : Result := .next (s.setV x s.getDelay)

/-- LD DT, Vx (R216). -/
def execLdDTX (x : Reg) (s : State) : Result := .next (s.setDelay (s.getV x))

/-- LD ST, Vx (R217). -/
def execLdSTX (x : Reg) (s : State) : Result := .next (s.setSound (s.getV x))

/-- LD Vx, K: with a key latched, Vx is its code; with none, `pc` goes back to this instruction and nothing else
changes. The latch is not consumed (R220). -/
def execLdXK (x : Reg) (s : State) : Result :=
  match s.activeKey with
  | some k => .next (s.setV x (zext8 k))
  | none => .next (s.setPc (s.pc - 2))

end Sys2Proof.Machine
end

