-- ==== Sys2Proof/Machine/Cycle.lean ====
section
/-! DEFINITION. One CYCLE (spec/30_encoding.md R87) and the events of the scheduler (spec/60_exceptions.md R252). -/

namespace Sys2Proof.Machine

/-- The execute phase of a fetched word, `pc` already advanced past it: decode, then execute; an illegal word raises a
DecodeFault before anything executes (R87, R232, R237). -/
def decodeAndExec (pcFetch op : Word) (s : State) : Result :=
  match decodeWord op with
  | .ok i => exec i s
  | .error _ => .next (s.raise { kind := .decode, pcFetch := pcFetch, op := some op, addr := none })

/-- `cycle()`: fetch, advance `pc` by 2, decode, execute; a fetch fault leaves `pc` (R87, R235). -/
def State.cycle (s : State) : Result :=
  match fetchWord s.mem s.pc.toNat with
  | .error bad => .next (s.raise { kind := .memory, pcFetch := s.pc, op := none, addr := some bad })
  | .ok op => decodeAndExec s.pc op (s.setPc (s.pc + 2))

/-- One event (R252). -/
def State.perform (s : State) : Event → Result
  | .cycle => s.cycle
  | .tick => .next s.tick
  | .sample k => .next (s.sample k)
  | .stop => .next s.stop

/-- One step of the scheduler: in `running` the next scheduled event, in `stopped` and `faulted` no step (R252). -/
def State.schedulerStep (s : State) : Result :=
  match s.runState with
  | .running => s.takeEvent.perform s.nextEvent
  | .stopped => .fault .runStopped
  | .faulted => .fault .runFaulted

end Sys2Proof.Machine
end

