-- ==== Sys2Proof/Machine/Step.lean ====
section
/-! DEFINITION. The step, and a word placed where the step fetches its next instruction. -/

namespace Sys2Proof.Machine

/-- One step of the machine (spec/60_exceptions.md R252). -/
def step (s : State) : Host.Outcome State Fault Refusal := s.schedulerStep

/-- The state with an opcode-table row's word stored where the very next step fetches (log entry 15). -/
def State.withFetchWord (s : State) (nbits w : Nat) : State :=
  { s.readyToFetch with mem := s.mem.putWord s.readyToFetch.pc.toNat (tableWord nbits w) }

end Sys2Proof.Machine
end

