-- ==== Sys2Proof/Safety.lean ====
section
/-! DEFINITION. The terms claims about the machine are stated in: what an instruction leaves unchanged, when it
faults, the invariants, and what a run of the scheduler is (spec/60_exceptions.md R252-R260). -/

namespace Sys2Proof.Safety

open Sys2Proof.Machine

/-! ### Frames -/

/-- A part of the state other than memory. -/
inductive Part where
  | reg (r : Reg)
  | index
  | pc
  | callStack
  | delayTimer
  | soundTimer
  | display
  | latch
  | runState
  | fault
  | frameOut
  | draws
  | pending
  deriving DecidableEq, Repr

/-- Between `s` and `t` every part not listed is unchanged, and every byte of memory outside `stored` reads as
before. -/
structure Unchanged (parts : List Part) (stored : Nat → Prop) (s t : State) : Prop where
  regs : ∀ r, .reg r ∉ parts → t.getV r = s.getV r
  index : .index ∉ parts → t.i = s.i
  pc : .pc ∉ parts → t.pc = s.pc
  callStack : .callStack ∉ parts → t.stack = s.stack ∧ t.sp = s.sp
  delayTimer : .delayTimer ∉ parts → t.dt = s.dt
  soundTimer : .soundTimer ∉ parts → t.st = s.st
  display : .display ∉ parts → t.display = s.display
  latch : .latch ∉ parts → t.latch = s.latch
  runState : .runState ∉ parts → t.runState = s.runState
  fault : .fault ∉ parts → t.fault = s.fault
  frameOut : .frameOut ∉ parts → t.frameOut = s.frameOut
  draws : .draws ∉ parts → t.draws = s.draws
  pending : .pending ∉ parts → t.pending = s.pending
  memory : ∀ a, ¬ stored a → t.mem.byteAt a = s.mem.byteAt a

/-- The form stores nothing. -/
def nothing (_a : Nat) : Prop := False

/-- The form stores the `len` bytes from an address. -/
def bytesAt (base len a : Nat) : Prop := base ≤ a ∧ a < base + len

/-- The registers V0 to Vx as parts (R175, R176). -/
def regsTo (x : Reg) : List Part := ((List.finRange 16).filter (fun r => decide (r ≤ x))).map .reg

/-! ### Instructions -/

/-- Every word of an opcode-table row (its mask and match) decodes to the instruction with the word's fields. -/
def RowDecodes (mask pattern : Word) (ins : Word → Instr) : Prop :=
  ∀ op : Word, op &&& mask = pattern → decodeWord op = .ok (ins op)

/-- The registers an instruction may write, row by row of R22's table. -/
def writtenRegisters : Instr → List Reg
  | .ldImm x _ | .addImm x _ | .ldReg x _ | .orReg x _ | .andReg x _ | .xorReg x _ | .rnd x _
  | .ldXDT x | .ldXK x => [x]
  | .addReg x _ | .sub x _ | .subn x _ | .shr x _ | .shl x _ => [x, vF]
  | .drw _ _ _ => [vF]
  | .ldXMem x => (List.finRange 16).filter (fun r => decide (r ≤ x))
  | .sys _ | .cls | .ret | .jp _ | .call _ | .seImm _ _ | .sneImm _ _ | .seReg _ _ | .sneReg _ _ | .ldI _
  | .jpV0 _ | .skp _ | .sknp _ | .ldDTX _ | .ldSTX _ | .addI _ | .ldF _ | .ldB _ | .ldMemX _ => []

/-- When the execute phase of an instruction faults (R231, R237). -/
def faultCondition (s : State) : Instr → Prop
  | .call _ => s.sp.val = 16
  | .ret => s.sp.val = 0
  | .ldB _ => 4096 ≤ s.i.toNat + 2
  | .ldMemX x | .ldXMem x => 4096 ≤ s.i.toNat + x.val
  | .drw _ _ n => 0 < n.val ∧ 4096 ≤ s.i.toNat + n.val - 1
  | .sys _ | .cls | .jp _ | .seImm _ _ | .sneImm _ _ | .seReg _ _ | .ldImm _ _ | .addImm _ _ | .ldReg _ _
  | .orReg _ _ | .andReg _ _ | .xorReg _ _ | .addReg _ _ | .sub _ _ | .shr _ _ | .subn _ _ | .shl _ _
  | .sneReg _ _ | .ldI _ | .jpV0 _ | .rnd _ _ | .skp _ | .sknp _ | .ldXDT _ | .ldXK _ | .ldDTX _ | .ldSTX _
  | .addI _ | .ldF _ => False

/-- The state a fault of an instruction's execute phase leaves: the record, and nothing else changed (R41, R235). The
instruction stands at `pc - 2`, since `pc` has advanced. -/
def faultedBy (s : State) (i : Instr) (kind : FaultKind) (addr : Option Nat) : State :=
  { s with runState := .faulted, fault := some ⟨kind, s.pc - 2, some (encodeWord i), addr⟩ }

/-- Does the sprite of `DXYN`, `n` bytes of memory at `I` drawn at (Vx, Vy) with wraparound, have a 1 on this pixel
(R191, R199)? -/
def spriteCovers (s : State) (x y : Reg) (n : Fin 16) (py : Fin 32) (px : Fin 64) : Prop :=
  ∃ r k : Nat, r < n.val ∧ k < 8 ∧ py.val = ((s.getV y).toNat + r) % 32 ∧ px.val = ((s.getV x).toNat + k) % 64 ∧
    (s.mem.byteAt (s.i.toNat + r)).getLsbD (7 - k) = true

/-- The byte FX33 stores at an address, if it stores one there (R174). -/
def bcdStored (s : State) (x : Reg) (a : Nat) : Option Byte :=
  if a = s.i.toNat then some (BitVec.ofNat 8 ((s.getV x).toNat / 100))
  else if a = s.i.toNat + 1 then some (BitVec.ofNat 8 ((s.getV x).toNat / 10 % 10))
  else if a = s.i.toNat + 2 then some (BitVec.ofNat 8 ((s.getV x).toNat % 10))
  else none

/-- The byte FX55 stores at an address, if it stores one there (R175). -/
def blockStored (s : State) (x : Reg) (a : Nat) : Option Byte :=
  if h : s.i.toNat ≤ a ∧ a ≤ s.i.toNat + x.val then
    some (s.getV ⟨a - s.i.toNat, Nat.lt_of_le_of_lt (Nat.sub_le_iff_le_add'.2 h.2) x.isLt⟩)
  else none

/-- What a byte reads as after a store: the stored one where there is one, else the one that was there. -/
def byteAfter (stored : Nat → Option Byte) (s : State) (a : Nat) : Byte := (stored a).getD (s.mem.byteAt a)

/-- A store from `s` to `t` is seen by every later fetch: a running state whose memory still holds the two bytes at its
`pc` as `t` left them fetches, decodes and executes the word those bytes are after the store (R69). -/
def SeenByFetches (stored : Nat → Option Byte) (s t : State) : Prop :=
  ∀ later : State, later.runState = .running → later.nextEvent = .cycle → later.pc.toNat + 1 < 4096 →
    later.mem.byteAt later.pc.toNat = t.mem.byteAt later.pc.toNat →
    later.mem.byteAt (later.pc.toNat + 1) = t.mem.byteAt (later.pc.toNat + 1) →
    step later = decodeAndExec later.pc
      (wordOfBytes (byteAfter stored s later.pc.toNat) (byteAfter stored s (later.pc.toNat + 1)))
      { later.takeEvent with pc := later.pc + 2 }

/-- Change the next state an outcome answers. -/
def mapNext (f : State → State) : Result → Result
  | .next s => .next (f s)
  | .fault r => .fault r
  | .refused r => .refused r

/-! ### Invariants -/

/-- The shape of a fault record (R41, R231): the word is absent only for a memory fault (of a fetch), an address is
there exactly for a memory fault, and it lies outside memory. -/
def RecordShape (q : FaultRecord) : Prop :=
  (q.op = none → q.kind = .memory) ∧ (q.addr.isSome ↔ q.kind = .memory) ∧ ∀ a, q.addr = some a → 4096 ≤ a

/-- What holds of the state in every run: memory in its canonical form, the presentation plane the colours of the
logical plane (R34, R195), a fault record exactly when the run is faulted (R41), and no frame with the fallback
colour (R197). -/
structure Inv (s : State) : Prop where
  memory : s.mem.wf
  presentation : ∀ y x, s.display.shown y x = colour (s.display.pixel y x)
  recordPresent : s.runState = .faulted ↔ s.fault.isSome
  recordShape : ∀ q, s.fault = some q → RecordShape q
  frame : ∀ (y : Fin 32) (x : Fin 64), (s.frameOut.get y).get x ≠ .fallback

/-- The bounds of R25 that keep the 16-bit `pc` from ever wrapping: `pc` at most 0x10FE, and every return address in
use at most 0x1000. -/
def PcBounded (s : State) : Prop :=
  s.pc.toNat ≤ 0x10FE ∧ ∀ k : Fin 16, k.val < s.sp.val → (s.stack.get k).toNat ≤ 0x1000

/-! ### Runs of the scheduler -/

/-- The only successful end of a run (R259). -/
def Successful (s : State) : Prop := s.runState = .stopped

/-- The states of `n` steps under a schedule of the environment (R252). -/
def runUnder (schedule : Nat → Event) (n : Nat) (s : State) : Result :=
  Host.Core.run Sys2Proof.core n { s with pending := (List.range n).map schedule }

/-- Weak fairness (R253): CYCLE, TICK and SAMPLE each occur infinitely often; nothing is assumed of STOP or of the
keys sampled. -/
def Fair (schedule : Nat → Event) : Prop :=
  ∀ n, (∃ m, n ≤ m ∧ schedule m = .cycle) ∧ (∃ m, n ≤ m ∧ schedule m = .tick) ∧
    ∃ m k, n ≤ m ∧ schedule m = .sample k

/-- The CPU waits for a key: the instruction at `pc` is an FX0A and the latch is empty (R39). -/
def WaitingForKey (s : State) (x : Reg) : Prop :=
  fetchWord s.mem s.pc.toNat = .ok (encodeWord (.ldXK x)) ∧ s.latch = none

/-- The program end convention for claims (R260): the word at `pc` is a jump to itself. -/
def AtSelfJump (s : State) : Prop :=
  ∃ nnn, s.pc = zext16 nnn ∧ fetchWord s.mem s.pc.toNat = .ok (encodeWord (.jp nnn))

/-- Events that bring no key and do not stop the run. -/
def Idle : Event → Prop
  | .cycle | .tick | .sample none => True
  | .sample (some _) | .stop => False

end Sys2Proof.Safety
end

