-- ==== Sys2Proof/Certificates/Slice0/Obligations.lean ====
section
/-! DEFINITION. The statements for the provers. Each docstring names the rule of spec/ it formalises; a statement that
rests on one of the spec's own decisions (D<n> of spec/92_eei_decisions.md) or on a choice of the model says so. -/

open Sys2Proof
open Sys2Proof.Machine
open Sys2Proof.Safety

/-! ### The cycle and the encoding -/

/-- R55, R87, R232: a CYCLE reads two bytes at `pc`, high byte first; a byte out of range is a MemoryFault that leaves
`pc`; otherwise `pc` advances by 2 and the decoded instruction executes, or the illegal word is a DecodeFault. That an
address out of range faults is the spec's decision D2, what the record holds and that nothing else changes its decision
D25, and that a fault is a next state is the model's reading (log entry 3). -/
def Obligations.StepRunsTheFetchedWord : Prop :=
  ∀ s : State, s.runState = .running → s.nextEvent = .cycle →
    (4096 ≤ s.pc.toNat → step s = .next { s.takeEvent with
        runState := .faulted, fault := some ⟨.memory, s.pc, none, some s.pc.toNat⟩ }) ∧
    (s.pc.toNat = 4095 → step s = .next { s.takeEvent with
        runState := .faulted, fault := some ⟨.memory, s.pc, none, some 4096⟩ }) ∧
    (s.pc.toNat + 1 < 4096 → ∀ op : Word,
      op.toNat = 256 * (s.mem.byteAt s.pc.toNat).toNat + (s.mem.byteAt (s.pc.toNat + 1)).toNat →
      (∀ i, decodeWord op = .ok i → step s = exec i { s.takeEvent with pc := s.pc + 2 }) ∧
      (∀ e, decodeWord op = .error e → step s = .next { s.takeEvent with
          pc := s.pc + 2, runState := .faulted, fault := some ⟨.decode, s.pc, some op, none⟩ }))

/-- R80 to R93 (the spec's decision D6): decoding the word of a well-formed instruction gives the instruction back,
every operand at every value. (The words themselves are the spec's general knowledge, log entry 12.) -/
def Obligations.DecodeInvertsEncode : Prop :=
  ∀ (i : Instr) (rest : List Byte), i.wellFormed = true →
    decodeWord (encodeWord i) = .ok i ∧ decodeBytes (encode i ++ rest) = .ok (i, rest)

/-- R88, R91, R93 (the spec's decision D7): a word that decodes is the word of its instruction, but for the low nibble
of families 5 and 9, which the encoder writes 0 (the model's choice, log entry 13). -/
def Obligations.EncodeInvertsDecode : Prop :=
  ∀ (op : Word) (i : Instr), decodeWord op = .ok i →
    i.wellFormed = true ∧
      (encodeWord i = op ∨ ((op.toNat / 4096 = 5 ∨ op.toNat / 4096 = 9) ∧ encodeWord i = op &&& 0xFFF0#16))

/-- R86 (the spec's decisions D5 and D6 for family 0): the illegal words are exactly these, under either policy. -/
def Obligations.IllegalWordsAreExactly : Prop :=
  ∀ (policy : SysPolicy) (op : Word),
    (∃ e, decodeWith policy op = .error e) ↔
      (op.toNat / 4096 = 8 ∧ op.toNat % 16 ∈ [8, 9, 10, 11, 12, 13, 15]) ∨
      (op.toNat / 4096 = 0xE ∧ op.toNat % 256 ∉ [0x9E, 0xA1]) ∨
      (op.toNat / 4096 = 0xF ∧ op.toNat % 256 ∉ [0x07, 0x0A, 0x15, 0x18, 0x1E, 0x29, 0x33, 0x55, 0x65]) ∨
      (policy = .fault ∧ op.toNat / 4096 = 0 ∧ op ≠ 0x00E0#16 ∧ op ≠ 0x00EE#16)

/-- The two words the source itself gives (R85) and words of spec/95_test_vectors.md L2.1 decode as written there. -/
def Obligations.WordsOfTheSpecDecode : Prop :=
  decodeWord 0x600A = .ok (.ldImm 0 0x0A) ∧ decodeWord 0x7005 = .ok (.addImm 0 0x05) ∧
  decodeWord 0x0000 = .ok (.sys 0x000) ∧ decodeWord 0x00E0 = .ok .cls ∧ decodeWord 0x00EE = .ok .ret ∧
  decodeWord 0x01E0 = .ok (.sys 0x1E0) ∧ decodeWord 0x0FEE = .ok (.sys 0xFEE) ∧
  decodeWord 0x5121 = .ok (.seReg 1 2) ∧ decodeWord 0x912F = .ok (.sneReg 1 2) ∧
  decodeWord 0x812E = .ok (.shl 1 2) ∧ decodeWord 0xFF65 = .ok (.ldXMem 15) ∧ decodeWord 0xD000 = .ok (.drw 0 0 0) ∧
  decodeWord 0x8128 = .error .illegalFamily8 ∧ decodeWord 0x812F = .error .illegalFamily8 ∧
  decodeWord 0xE09F = .error .illegalFamilyE ∧ decodeWord 0xF000 = .error .illegalFamilyF

/-- R84, R85, R91, R92, R93 (the spec's decisions D5 to D7): every word of every opcode-table row decodes to the row's
instruction with the word's fields; SYS is the row that leaves out two words. -/
def Obligations.OpcodeTableRowsDecode : Prop :=
  (∀ op : Word, op &&& 0xF000 = 0x0000 → op ≠ 0x00E0#16 → op ≠ 0x00EE#16 → decodeWord op = .ok (.sys (fieldNNN op))) ∧
  RowDecodes 0xFFFF 0x00E0 (fun _ => .cls) ∧
  RowDecodes 0xFFFF 0x00EE (fun _ => .ret) ∧
  RowDecodes 0xF000 0x1000 (fun op => .jp (fieldNNN op)) ∧
  RowDecodes 0xF000 0x2000 (fun op => .call (fieldNNN op)) ∧
  RowDecodes 0xF000 0x3000 (fun op => .seImm (fieldX op) (fieldKK op)) ∧
  RowDecodes 0xF000 0x4000 (fun op => .sneImm (fieldX op) (fieldKK op)) ∧
  RowDecodes 0xF000 0x5000 (fun op => .seReg (fieldX op) (fieldY op)) ∧
  RowDecodes 0xF000 0x6000 (fun op => .ldImm (fieldX op) (fieldKK op)) ∧
  RowDecodes 0xF000 0x7000 (fun op => .addImm (fieldX op) (fieldKK op)) ∧
  RowDecodes 0xF00F 0x8000 (fun op => .ldReg (fieldX op) (fieldY op)) ∧
  RowDecodes 0xF00F 0x8001 (fun op => .orReg (fieldX op) (fieldY op)) ∧
  RowDecodes 0xF00F 0x8002 (fun op => .andReg (fieldX op) (fieldY op)) ∧
  RowDecodes 0xF00F 0x8003 (fun op => .xorReg (fieldX op) (fieldY op)) ∧
  RowDecodes 0xF00F 0x8004 (fun op => .addReg (fieldX op) (fieldY op)) ∧
  RowDecodes 0xF00F 0x8005 (fun op => .sub (fieldX op) (fieldY op)) ∧
  RowDecodes 0xF00F 0x8006 (fun op => .shr (fieldX op) (fieldY op)) ∧
  RowDecodes 0xF00F 0x8007 (fun op => .subn (fieldX op) (fieldY op)) ∧
  RowDecodes 0xF00F 0x800E (fun op => .shl (fieldX op) (fieldY op)) ∧
  RowDecodes 0xF000 0x9000 (fun op => .sneReg (fieldX op) (fieldY op)) ∧
  RowDecodes 0xF000 0xA000 (fun op => .ldI (fieldNNN op)) ∧
  RowDecodes 0xF000 0xB000 (fun op => .jpV0 (fieldNNN op)) ∧
  RowDecodes 0xF000 0xC000 (fun op => .rnd (fieldX op) (fieldKK op)) ∧
  RowDecodes 0xF000 0xD000 (fun op => .drw (fieldX op) (fieldY op) (fieldN op)) ∧
  RowDecodes 0xF0FF 0xE09E (fun op => .skp (fieldX op)) ∧
  RowDecodes 0xF0FF 0xE0A1 (fun op => .sknp (fieldX op)) ∧
  RowDecodes 0xF0FF 0xF007 (fun op => .ldXDT (fieldX op)) ∧
  RowDecodes 0xF0FF 0xF00A (fun op => .ldXK (fieldX op)) ∧
  RowDecodes 0xF0FF 0xF015 (fun op => .ldDTX (fieldX op)) ∧
  RowDecodes 0xF0FF 0xF018 (fun op => .ldSTX (fieldX op)) ∧
  RowDecodes 0xF0FF 0xF01E (fun op => .addI (fieldX op)) ∧
  RowDecodes 0xF0FF 0xF029 (fun op => .ldF (fieldX op)) ∧
  RowDecodes 0xF0FF 0xF033 (fun op => .ldB (fieldX op)) ∧
  RowDecodes 0xF0FF 0xF055 (fun op => .ldMemX (fieldX op)) ∧
  RowDecodes 0xF0FF 0xF065 (fun op => .ldXMem (fieldX op))

/-! ### Register arithmetic and logic -/

/-- R142, R144: `6XKK` puts `kk` in Vx and `8XY0` puts Vy in Vx; no flag, no fault, nothing else changes. -/
def Obligations.LoadRegisterForms : Prop :=
  RowDecodes 0xF000 0x6000 (fun op => .ldImm (fieldX op) (fieldKK op)) ∧
  RowDecodes 0xF00F 0x8000 (fun op => .ldReg (fieldX op) (fieldY op)) ∧
  (∀ (x : Reg) (kk : Byte) (s : State), ∃ t, exec (.ldImm x kk) s = .next t ∧
    t.getV x = kk ∧ Unchanged [.reg x] nothing s t) ∧
  (∀ (x y : Reg) (s : State), ∃ t, exec (.ldReg x y) s = .next t ∧
    t.getV x = s.getV y ∧ Unchanged [.reg x] nothing s t)

/-- R143: `7XKK` adds modulo 256; that VF is left alone is the spec's decision D20. -/
def Obligations.AddImmediateWraps : Prop :=
  ∀ (x : Reg) (kk : Byte) (s : State), ∃ t, exec (.addImm x kk) s = .next t ∧
    (t.getV x).toNat = ((s.getV x).toNat + kk.toNat) % 256 ∧ Unchanged [.reg x] nothing s t

/-- R145 to R147: OR, AND and XOR, bit by bit; that VF is left alone is the spec's decision D9. -/
def Obligations.LogicalForms : Prop :=
  ∀ (x y : Reg) (s : State),
    (∃ t, exec (.orReg x y) s = .next t ∧ Unchanged [.reg x] nothing s t ∧
      ∀ k, (t.getV x).getLsbD k = ((s.getV x).getLsbD k || (s.getV y).getLsbD k)) ∧
    (∃ t, exec (.andReg x y) s = .next t ∧ Unchanged [.reg x] nothing s t ∧
      ∀ k, (t.getV x).getLsbD k = ((s.getV x).getLsbD k && (s.getV y).getLsbD k)) ∧
    (∃ t, exec (.xorReg x y) s = .next t ∧ Unchanged [.reg x] nothing s t ∧
      ∀ k, (t.getV x).getLsbD k = xor ((s.getV x).getLsbD k) ((s.getV y).getLsbD k))

/-- R148: `8XY4` stores the sum modulo 256 and sets VF to 1 when the sum exceeds 255, else 0. That with `x = F` the flag
stays, not the sum, is R141's order of writes, the spec's decision D8. -/
def Obligations.AddRegistersSetsCarry : Prop :=
  RowDecodes 0xF00F 0x8004 (fun op => .addReg (fieldX op) (fieldY op)) ∧
  ∀ (x y : Reg) (s : State), ∃ t, exec (.addReg x y) s = .next t ∧
    (x ≠ vF → (t.getV x).toNat = ((s.getV x).toNat + (s.getV y).toNat) % 256) ∧
    t.getV vF = (if (s.getV x).toNat + (s.getV y).toNat > 255 then 1 else 0) ∧
    Unchanged [.reg x, .reg vF] nothing s t

/-- R149, R151: SUB stores `Vx - Vy` and SUBN `Vy - Vx`, modulo 256; VF is 1 exactly when the minuend is strictly
greater. That with `x = F` the flag stays is R141's order of writes, the spec's decision D8. -/
def Obligations.SubtractFormsSetNotBorrow : Prop :=
  RowDecodes 0xF00F 0x8005 (fun op => .sub (fieldX op) (fieldY op)) ∧
  RowDecodes 0xF00F 0x8007 (fun op => .subn (fieldX op) (fieldY op)) ∧
  (∀ (x y : Reg) (s : State), ∃ t, exec (.sub x y) s = .next t ∧
    (x ≠ vF → (t.getV x).toNat = ((s.getV x).toNat + 256 - (s.getV y).toNat) % 256) ∧
    t.getV vF = (if (s.getV x).toNat > (s.getV y).toNat then 1 else 0) ∧
    Unchanged [.reg x, .reg vF] nothing s t) ∧
  (∀ (x y : Reg) (s : State), ∃ t, exec (.subn x y) s = .next t ∧
    (x ≠ vF → (t.getV x).toNat = ((s.getV y).toNat + 256 - (s.getV x).toNat) % 256) ∧
    t.getV vF = (if (s.getV y).toNat > (s.getV x).toNat then 1 else 0) ∧
    Unchanged [.reg x, .reg vF] nothing s t)

/-- R150, R152 under `SHIFT_SOURCE = Vx` (the spec's decision D10): the result is half or double of Vx, VF the bit
lost. That with `x = F` the flag stays is R141's order of writes, the spec's decision D8. -/
def Obligations.ShiftFormsKeepTheLostBit : Prop :=
  ∀ (x y : Reg) (s : State),
    (∃ t, exec (.shr x y) s = .next t ∧ (x ≠ vF → (t.getV x).toNat = (s.getV x).toNat / 2) ∧
      (t.getV vF).toNat = (s.getV x).toNat % 2 ∧ Unchanged [.reg x, .reg vF] nothing s t) ∧
    (∃ t, exec (.shl x y) s = .next t ∧ (x ≠ vF → (t.getV x).toNat = (s.getV x).toNat * 2 % 256) ∧
      (t.getV vF).toNat = (s.getV x).toNat / 128 ∧ Unchanged [.reg x, .reg vF] nothing s t)

/-- R153 (the spec's decision D19): `CXKK` takes one byte from the environment and masks it, so a bit of Vx is 0
wherever `kk` has 0. That the bytes are the free sequence `Config.draw`, read at the counter `draws` that each CXKK
advances by 1, is the model's choice (log entry 1). -/
def Obligations.RandomByteIsMasked : Prop :=
  ∀ (x : Reg) (kk : Byte) (s : State), ∃ t, exec (.rnd x kk) s = .next t ∧
    t.getV x = Config.draw s.draws &&& kk ∧ t.draws = s.draws + 1 ∧
    (∀ k, kk.getLsbD k = false → (t.getV x).getLsbD k = false) ∧ Unchanged [.reg x, .draws] nothing s t

/-! ### Control -/

/-- R121, R122: SE and SNE with an immediate add 2 to the advanced `pc` when the condition holds; nothing else
changes. -/
def Obligations.SkipsOnImmediate : Prop :=
  RowDecodes 0xF000 0x3000 (fun op => .seImm (fieldX op) (fieldKK op)) ∧
  RowDecodes 0xF000 0x4000 (fun op => .sneImm (fieldX op) (fieldKK op)) ∧
  (∀ (x : Reg) (kk : Byte) (s : State), ∃ t, exec (.seImm x kk) s = .next t ∧
    t.pc = (if s.getV x = kk then s.pc + 2 else s.pc) ∧ Unchanged [.pc] nothing s t) ∧
  (∀ (x : Reg) (kk : Byte) (s : State), ∃ t, exec (.sneImm x kk) s = .next t ∧
    t.pc = (if s.getV x = kk then s.pc else s.pc + 2) ∧ Unchanged [.pc] nothing s t)

/-- R123, R124: SE and SNE on two registers, whatever the low nibble (the spec's decision D7). -/
def Obligations.SkipsOnRegisters : Prop :=
  (∀ op : Word, op.toNat / 4096 = 5 → decodeWord op = .ok (.seReg (fieldX op) (fieldY op))) ∧
  (∀ op : Word, op.toNat / 4096 = 9 → decodeWord op = .ok (.sneReg (fieldX op) (fieldY op))) ∧
  (∀ (x y : Reg) (s : State), ∃ t, exec (.seReg x y) s = .next t ∧
    t.pc = (if s.getV x = s.getV y then s.pc + 2 else s.pc) ∧ Unchanged [.pc] nothing s t) ∧
  (∀ (x y : Reg) (s : State), ∃ t, exec (.sneReg x y) s = .next t ∧
    t.pc = (if s.getV x = s.getV y then s.pc else s.pc + 2) ∧ Unchanged [.pc] nothing s t)

/-- R218, R219 (the spec's decision D17: all 8 bits of Vx are compared): SKP skips exactly when the latched key's code
is Vx, SKNP exactly when it is not; with no key latched SKP never skips and SKNP always does. -/
def Obligations.SkipsOnKey : Prop :=
  (∀ (x : Reg) (s : State), ∃ t, exec (.skp x) s = .next t ∧ Unchanged [.pc] nothing s t ∧
    ((∃ k, s.latch = some k ∧ k.toNat = (s.getV x).toNat) → t.pc = s.pc + 2) ∧
    ((∀ k, s.latch = some k → k.toNat ≠ (s.getV x).toNat) → t.pc = s.pc)) ∧
  (∀ (x : Reg) (s : State), ∃ t, exec (.sknp x) s = .next t ∧ Unchanged [.pc] nothing s t ∧
    ((∃ k, s.latch = some k ∧ k.toNat = (s.getV x).toNat) → t.pc = s.pc) ∧
    ((∀ k, s.latch = some k → k.toNat ≠ (s.getV x).toNat) → t.pc = s.pc + 2))

/-- R103: JP sets `pc` to the 12-bit target; no flag, no fault, nothing else changes. -/
def Obligations.JumpSetsPc : Prop :=
  RowDecodes 0xF000 0x1000 (fun op => .jp (fieldNNN op)) ∧
  ∀ (nnn : Addr12) (s : State), ∃ t, exec (.jp nnn) s = .next t ∧
    t.pc.toNat = nnn.toNat ∧ Unchanged [.pc] nothing s t

/-- R105 (the spec's decision D12): JP V0 adds V0, always register 0, and does not mask the sum to 12 bits. -/
def Obligations.JumpOffsetIsNotMasked : Prop :=
  ∀ (nnn : Addr12) (s : State), ∃ t, exec (.jpV0 nnn) s = .next t ∧
    t.pc.toNat = nnn.toNat + (s.getV 0).toNat ∧ Unchanged [.pc] nothing s t

/-- R101 (the spec's decision D5): SYS changes nothing. -/
def Obligations.SysChangesNothing : Prop :=
  ∀ (nnn : Addr12) (s : State), ∃ t, exec (.sys nnn) s = .next t ∧ Unchanged [] nothing s t

/-- R104 (the spec's decisions D4, D34): with a free entry CALL pushes the advanced `pc` and jumps; with 16 entries in
use it raises StackFault(overflow) and pushes nothing (its record: the spec's decision D25, log entries 3 and 4). -/
def Obligations.CallPushesOrFaults : Prop :=
  (∀ (nnn : Addr12) (s : State), s.sp.val < 16 → ∃ t, exec (.call nnn) s = .next t ∧
    t.pc.toNat = nnn.toNat ∧ t.sp.val = s.sp.val + 1 ∧
    (∀ k : Fin 16, t.stack.get k = if k.val = s.sp.val then s.pc else s.stack.get k) ∧
    Unchanged [.pc, .callStack] nothing s t) ∧
  (∀ (nnn : Addr12) (s : State), s.sp.val = 16 →
    exec (.call nnn) s = .next (faultedBy s (.call nnn) .stackOverflow none))

/-- R102, R28 (the spec's decision D4): with an entry in use RET pops it into `pc` and the entry keeps its value; with
none it raises StackFault(underflow) and changes nothing else (its record: the spec's decision D25, log entries 3 and
4). -/
def Obligations.ReturnPopsOrFaults : Prop :=
  (∀ s : State, 0 < s.sp.val → ∃ t, exec .ret s = .next t ∧
    t.sp.val + 1 = s.sp.val ∧ t.stack = s.stack ∧ (∀ k : Fin 16, k.val + 1 = s.sp.val → t.pc = s.stack.get k) ∧
    Unchanged [.pc, .callStack] nothing s t) ∧
  (∀ s : State, s.sp.val = 0 → exec .ret s = .next (faultedBy s .ret .stackUnderflow none))

/-- From R102 and R104 (the spec's decision D4): RET after CALL, whatever ran between them and left the stack alone,
comes back to the address after the CALL with the stack pointer as it was before the CALL and every other stack entry
unchanged. -/
def Obligations.ReturnAfterCallComesBack : Prop :=
  ∀ (nnn : Addr12) (s t : State), s.sp.val < 16 → exec (.call nnn) s = .next t →
    ∀ (atReturn : State), atReturn.sp = t.sp → atReturn.stack = t.stack →
      ∃ u, exec .ret atReturn = .next u ∧ u.pc = s.pc ∧ u.sp = s.sp ∧
        (∀ k : Fin 16, k.val ≠ s.sp.val → u.stack.get k = s.stack.get k) ∧
        Unchanged [.pc, .callStack] nothing atReturn u

/-! ### The index register and memory -/

/-- R171: `ANNN` puts the 12-bit value in I; no flag, no fault, nothing else changes. -/
def Obligations.LoadIndex : Prop :=
  RowDecodes 0xF000 0xA000 (fun op => .ldI (fieldNNN op)) ∧
  ∀ (nnn : Addr12) (s : State), ∃ t, exec (.ldI nnn) s = .next t ∧
    t.i.toNat = nnn.toNat ∧ Unchanged [.index] nothing s t

/-- R172, R173 (the spec's decisions D13, D14): ADD I wraps at 16 bits and sets no flag; LD F takes the whole byte times
5, unmasked. -/
def Obligations.IndexArithmetic : Prop :=
  (∀ (x : Reg) (s : State), ∃ t, exec (.addI x) s = .next t ∧
    t.i.toNat = (s.i.toNat + (s.getV x).toNat) % 65536 ∧ Unchanged [.index] nothing s t) ∧
  (∀ (x : Reg) (s : State), ∃ t, exec (.ldF x) s = .next t ∧
    t.i.toNat = (s.getV x).toNat * 5 ∧ Unchanged [.index] nothing s t)

/-- R174 (the digit order is the spec's decision D15; canonical memory is the model's choice, log entry 8): when the
three bytes lie in memory, LD B stores the decimal digits of Vx at I, I + 1 and I + 2, hundreds first, and nothing
else changes. -/
def Obligations.BcdDigitsAreStored : Prop :=
  ∀ (x : Reg) (s : State), s.mem.wf → s.i.toNat + 2 < 4096 → ∃ t, exec (.ldB x) s = .next t ∧
    (t.mem.byteAt s.i.toNat).toNat = (s.getV x).toNat / 100 ∧
    (t.mem.byteAt (s.i.toNat + 1)).toNat = (s.getV x).toNat / 10 % 10 ∧
    (t.mem.byteAt (s.i.toNat + 2)).toNat = (s.getV x).toNat % 10 ∧
    Unchanged [] (bytesAt s.i.toNat 3) s t

/-- R175 (I unmoved is the spec's decision D11; canonical memory is the model's choice, log entry 8): when its bytes
lie in memory, LD [I] stores V0 to Vx at I upward and nothing else changes. -/
def Obligations.BlockStoreWritesRegisters : Prop :=
  ∀ (x : Reg) (s : State), s.mem.wf → s.i.toNat + x.val < 4096 → ∃ t, exec (.ldMemX x) s = .next t ∧
    (∀ r : Reg, r ≤ x → t.mem.byteAt (s.i.toNat + r.val) = s.getV r) ∧
    Unchanged [] (bytesAt s.i.toNat (x.val + 1)) s t

/-- R176 (I unmoved is the spec's decision D11): when its bytes lie in memory, LD Vx loads V0 to Vx from I upward, VF as
data when `x = F`, and nothing else changes. -/
def Obligations.BlockLoadReadsMemory : Prop :=
  ∀ (x : Reg) (s : State), s.i.toNat + x.val < 4096 → ∃ t, exec (.ldXMem x) s = .next t ∧
    (∀ r : Reg, r ≤ x → t.getV r = s.mem.byteAt (s.i.toNat + r.val)) ∧ Unchanged (regsTo x) nothing s t

/-- R170, R174 to R176, R199, R236 (the spec's decisions D2, D3, D25): when any address they would touch is out of
range, LD B, LD [I], LD Vx and DRW raise MemoryFault with the lowest one and write nothing. That the fault is a next
state and how its record is filled is the model's reading (log entries 3 and 4). -/
def Obligations.MemoryFaultsBeforeEffects : Prop :=
  ∀ s : State,
    (∀ x, 4096 ≤ s.i.toNat + 2 →
      exec (.ldB x) s = .next (faultedBy s (.ldB x) .memory (some (max s.i.toNat 4096)))) ∧
    (∀ x : Reg, 4096 ≤ s.i.toNat + x.val →
      exec (.ldMemX x) s = .next (faultedBy s (.ldMemX x) .memory (some (max s.i.toNat 4096)))) ∧
    (∀ x : Reg, 4096 ≤ s.i.toNat + x.val →
      exec (.ldXMem x) s = .next (faultedBy s (.ldXMem x) .memory (some (max s.i.toNat 4096)))) ∧
    (∀ (x y : Reg) (n : Fin 16), 0 < n.val → 4096 ≤ s.i.toNat + n.val - 1 →
      exec (.drw x y n) s = .next (faultedBy s (.drw x y n) .memory (some (max s.i.toNat 4096))))

/-- R69 (derived there; the spec's decision D29): every byte FX33 or FX55 stores is seen by every later fetch of its
address, the very next instruction's included, whether one or both bytes of the fetched word were stored; the bytes it
does not store are fetched as before. (The digits of FX33 and their order: the spec's decision D15;
canonical memory: the model's choice, log entry 8.) -/
def Obligations.StoreIsSeenByFetch : Prop :=
  (∀ (x : Reg) (s : State), s.mem.wf → s.i.toNat + 2 < 4096 →
    ∃ t, exec (.ldB x) s = .next t ∧ SeenByFetches (bcdStored s x) s t) ∧
  (∀ (x : Reg) (s : State), s.mem.wf → s.i.toNat + x.val < 4096 →
    ∃ t, exec (.ldMemX x) s = .next t ∧ SeenByFetches (blockStored s x) s t)

/-- The canonical form (the model's choice, log entry 8): two canonical memories that read alike at every address are
equal data. -/
def Obligations.EqualBytesAreEqualMemories : Prop :=
  ∀ m n : Memory, m.wf → n.wf → (∀ a, m.byteAt a = n.byteAt a) → m = n

/-! ### The display -/

/-- R193: `clear()`, which is what CLS does, makes every pixel 0 and every colour the background 0x00000000, sets no
flag and changes nothing else. -/
def Obligations.ClearScreenBlanksBothPlanes : Prop :=
  ∀ s : State, ∃ t, exec .cls s = .next t ∧
    (∀ y x, t.display.pixel y x = false) ∧
    (∀ y x, t.display.shown y x = .background ∧ (t.display.shown y x).word = 0x00000000#32) ∧
    Unchanged [.display] nothing s t

/-- R191, R192: `draw_byte` XORs bit `7 - k` of the byte into column `(x + k) mod 64` of row `y mod 32`, keeps every
other pixel and colour, recolours the eight, and answers whether a pixel went from set to clear. -/
def Obligations.DrawByteTogglesItsPixels : Prop :=
  ∀ (d : Display) (x y : Nat) (byte : Byte) (py : Fin 32) (px : Fin 64),
    (∀ k : Nat, k < 8 → py.val = y % 32 → px.val = (x + k) % 64 →
      (d.drawByte x y byte).1.pixel py px = xor (d.pixel py px) (byte.getLsbD (7 - k)) ∧
      (d.drawByte x y byte).1.shown py px = colour ((d.drawByte x y byte).1.pixel py px)) ∧
    ((∀ k : Nat, k < 8 → ¬ (py.val = y % 32 ∧ px.val = (x + k) % 64)) →
      (d.drawByte x y byte).1.pixel py px = d.pixel py px ∧
      (d.drawByte x y byte).1.shown py px = d.shown py px) ∧
    ((d.drawByte x y byte).2 = true ↔
      ∃ k : Nat, k < 8 ∧ byte.getLsbD (7 - k) = true ∧ d.pixel (rowOf y) (columnOf (x + k)) = true)

/-- R196 (derived there): a second draw of the same byte restores the logical plane; the first erases exactly where a
1-bit meets a set pixel, the second exactly where a 1-bit met a clear one. -/
def Obligations.DrawingTwiceRestores : Prop :=
  ∀ (d : Display) (x y : Nat) (byte : Byte),
    ((d.drawByte x y byte).1.drawByte x y byte).1.plane = d.plane ∧
    ((d.drawByte x y byte).2 = true ↔
      ∃ k : Nat, k < 8 ∧ byte.getLsbD (7 - k) = true ∧ d.pixel (rowOf y) (columnOf (x + k)) = true) ∧
    (((d.drawByte x y byte).1.drawByte x y byte).2 = true ↔
      ∃ k : Nat, k < 8 ∧ byte.getLsbD (7 - k) = true ∧ d.pixel (rowOf y) (columnOf (x + k)) = false)

/-- R199 (the spec's decision D16): when its rows lie in memory, DRW flips exactly the pixels its sprite covers, each
row and column wrapping, sets VF to whether a pixel went from set to clear, and changes nothing else; `n = 0` is one
of the forms. -/
def Obligations.DrawSpriteFlipsCoveredPixels : Prop :=
  ∀ (x y : Reg) (n : Fin 16) (s : State), n.val = 0 ∨ s.i.toNat + n.val ≤ 4096 →
    ∃ t, exec (.drw x y n) s = .next t ∧
      (∀ py px, (spriteCovers s x y n py px → t.display.pixel py px = !s.display.pixel py px) ∧
        (¬ spriteCovers s x y n py px → t.display.pixel py px = s.display.pixel py px)) ∧
      ((∀ py px, s.display.shown py px = colour (s.display.pixel py px)) →
        ∀ py px, t.display.shown py px = colour (t.display.pixel py px)) ∧
      ((∃ py px, s.display.pixel py px = true ∧ t.display.pixel py px = false) → t.getV vF = 1) ∧
      ((¬ ∃ py px, s.display.pixel py px = true ∧ t.display.pixel py px = false) → t.getV vF = 0) ∧
      Unchanged [.reg vF, .display] nothing s t

/-- R194, R195, R197 (the spec's decisions D23, D36): in every state that meets the invariant the snapshot's word is 0
where the pixel is off and the foreground, never 0, where it is on; no fallback is shown. The colours as names with free
words are the model's choice (log entry 5). -/
def Obligations.SnapshotShowsThePlane : Prop :=
  ∀ s : State, Inv s → ∀ (y : Fin 32) (x : Fin 64),
    (((s.display.snapshot.get y).get x).word = 0 ↔ s.display.pixel y x = false) ∧
    (s.display.pixel y x = true → ((s.display.snapshot.get y).get x).word = Config.fgColor) ∧
    (s.display.snapshot.get y).get x ≠ .fallback

/-! ### Timers and input -/

/-- R215 to R217: `FX07` reads DT, `FX15` writes DT, `FX18` writes ST; no flag, no fault, nothing else changes. -/
def Obligations.TimerInstructions : Prop :=
  RowDecodes 0xF0FF 0xF007 (fun op => .ldXDT (fieldX op)) ∧
  RowDecodes 0xF0FF 0xF015 (fun op => .ldDTX (fieldX op)) ∧
  RowDecodes 0xF0FF 0xF018 (fun op => .ldSTX (fieldX op)) ∧
  ∀ (x : Reg) (s : State),
    (∃ t, exec (.ldXDT x) s = .next t ∧ t.getV x = s.dt ∧ Unchanged [.reg x] nothing s t) ∧
    (∃ t, exec (.ldDTX x) s = .next t ∧ t.dt = s.getV x ∧ Unchanged [.delayTimer] nothing s t) ∧
    (∃ t, exec (.ldSTX x) s = .next t ∧ t.st = s.getV x ∧ (t.soundActive = true ↔ s.getV x ≠ 0) ∧
      Unchanged [.soundTimer] nothing s t)

/-- R220 (the spec's decision D18): with a key latched FX0A puts its code in Vx and keeps the latch; with none it only
takes `pc` back by 2. -/
def Obligations.KeyReadOrRewind : Prop :=
  (∀ (x : Reg) (k : Key) (s : State), s.latch = some k → ∃ t, exec (.ldXK x) s = .next t ∧
    (t.getV x).toNat = k.toNat ∧ Unchanged [.reg x] nothing s t) ∧
  (∀ (x : Reg) (s : State), s.latch = none → ∃ t, exec (.ldXK x) s = .next t ∧
    t.pc = s.pc - 2 ∧ Unchanged [.pc] nothing s t)

/-! ### The scheduler's events -/

/-- R211, with R212's output: a TICK takes 1 from each timer that is above 0, and in no other step does a timer change
but by FX15 and FX18. -/
def Obligations.TimersCountDownOnlyAtTicks : Prop :=
  ∀ s : State, s.runState = .running →
    (s.nextEvent = .tick → ∃ t, step s = .next t ∧
      t.dt.toNat = s.dt.toNat - 1 ∧ t.st.toNat = s.st.toNat - 1 ∧ (t.soundActive = true ↔ t.st ≠ 0) ∧
      Unchanged [.delayTimer, .soundTimer, .frameOut, .pending] nothing s t) ∧
    (s.nextEvent ≠ .tick → ∀ t, step s = .next t →
      (t.dt = s.dt ∨ ∃ x, s.nextEvent = .cycle ∧ fetchWord s.mem s.pc.toNat = .ok (encodeWord (.ldDTX x)) ∧
        t.dt = s.getV x) ∧
      (t.st = s.st ∨ ∃ x, s.nextEvent = .cycle ∧ fetchWord s.mem s.pc.toNat = .ok (encodeWord (.ldSTX x)) ∧
        t.st = s.getV x))

/-- R254: a TICK pushes the presentation plane to `frame_out`, a word 0 for the background and another for the
foreground, and no other step writes `frame_out`. -/
def Obligations.FramesArePushedOnlyAtTicks : Prop :=
  ∀ s : State, s.runState = .running →
    (s.nextEvent = .tick → ∃ t, step s = .next t ∧ t.frameOut = s.display.present ∧ t.display = s.display ∧
      (Inv s → ∀ (y : Fin 32) (x : Fin 64),
        ((t.frameOut.get y).get x).word = 0 ↔ s.display.pixel y x = false)) ∧
    (s.nextEvent ≠ .tick → ∀ t, step s = .next t → t.frameOut = s.frameOut)

/-- R214: only an input sample writes the latch; every other step leaves it, a key read included. -/
def Obligations.OnlySamplesWriteTheLatch : Prop :=
  ∀ s : State, s.runState = .running →
    (∀ k, s.nextEvent = .sample k → ∃ t, step s = .next t ∧ t.latch = k ∧
      Unchanged [.latch, .pending] nothing s t) ∧
    ((∀ k, s.nextEvent ≠ .sample k) → ∀ t, step s = .next t → t.latch = s.latch)

/-- R251: STOP sets `run_state` to stopped, changes nothing else, and no event follows it. That "no step" is answered by
the outcome `fault runStopped` is the model's reading (log entry 3). -/
def Obligations.StopEndsTheRun : Prop :=
  ∀ s : State, s.runState = .running → s.nextEvent = .stop → ∃ t, step s = .next t ∧
    Successful t ∧ Unchanged [.runState, .pending] nothing s t ∧ step t = .fault .runStopped

/-- R230, R252, R259 (the spec's decision D26): a running machine always has a next step, whatever the event; a stopped
or faulted one has none, a pending STOP included. How "no step" is answered is the model's reading (log entry 3). -/
def Obligations.StepsExactlyWhileRunning : Prop :=
  ∀ s : State, (s.runState = .running ↔ ∃ t, step s = .next t) ∧
    (s.runState = .stopped → step s = .fault .runStopped) ∧
    (s.runState = .faulted → step s = .fault .runFaulted)

/-! ### Faults -/

/-- R41, R230, R235, R236 (the spec's decision D25): whenever a step ends in a fault, the record names the address the
word was fetched from and the word itself, absent for a fetch fault; nothing else has changed but `pc`, advanced by 2
unless the fetch faulted. That the fault is a next state and how the record is filled is the model's reading (log
entries 3 and 4). -/
def Obligations.FaultLeavesOnlyItsRecord : Prop :=
  ∀ s t : State, s.runState = .running → step s = .next t → t.runState = .faulted →
    ∃ q : FaultRecord, q.pcFetch = s.pc ∧ RecordShape q ∧
      ((∃ bad, fetchWord s.mem s.pc.toNat = .error bad ∧ q.op = none ∧ q.addr = some bad ∧
          t = { s.takeEvent with runState := .faulted, fault := some q }) ∨
       (∃ op, fetchWord s.mem s.pc.toNat = .ok op ∧ q.op = some op ∧
          t = { s.takeEvent with pc := s.pc + 2, runState := .faulted, fault := some q }))

/-- R231, R237 (the spec's decisions D2 to D4; a fault as a next state: log entry 3): the execute phase faults exactly
on a full stack (CALL), an empty stack (RET) or an address out of range (LD B, LD [I], LD Vx, DRW), and no other
instruction ever does. -/
def Obligations.ExecuteFaultsExactly : Prop :=
  ∀ (i : Instr) (s : State), s.runState = .running →
    ((∃ t, exec i s = .next t ∧ t.runState = .faulted) ↔ faultCondition s i)

/-- R87, R230, with a fault as a next state (log entry 3): the execute phase of every instruction answers a next state,
on every state: no instruction of the table is refused or stops the model. -/
def Obligations.EveryInstructionAnswersNext : Prop :=
  ∀ (i : Instr) (s : State), ∃ t, exec i s = .next t

/-! ### Rules over all instructions -/

/-- R22: no instruction writes a general register outside its row of the register table. -/
def Obligations.RegisterWritesAreTheTable : Prop :=
  ∀ (i : Instr) (s t : State) (r : Reg), exec i s = .next t → r ∉ writtenRegisters i → t.getV r = s.getV r

/-- R23, R28, R31 to R33, R35, R57, R254: no instruction but the named ones changes I, the stack and SP, DT, ST, the
display or memory, and none changes the latch or the frame output. That FX55 and FX65 leave I is the spec's decision
D11; that no instruction changes the schedule `pending` and none but CXKK the counter `draws` is about the model's own
fields (log entries 2 and 1). -/
def Obligations.OtherStateHasNamedWriters : Prop :=
  ∀ (i : Instr) (s t : State), exec i s = .next t →
    t.latch = s.latch ∧ t.frameOut = s.frameOut ∧ t.pending = s.pending ∧
    ((∀ nnn, i ≠ .ldI nnn) → (∀ x, i ≠ .addI x) → (∀ x, i ≠ .ldF x) → t.i = s.i) ∧
    ((∀ nnn, i ≠ .call nnn) → i ≠ .ret → t.stack = s.stack ∧ t.sp = s.sp) ∧
    ((∀ x, i ≠ .ldDTX x) → t.dt = s.dt) ∧
    ((∀ x, i ≠ .ldSTX x) → t.st = s.st) ∧
    (i ≠ .cls → (∀ x y n, i ≠ .drw x y n) → t.display = s.display) ∧
    ((∀ x, i ≠ .ldB x) → (∀ x, i ≠ .ldMemX x) → t.mem = s.mem) ∧
    ((∀ x kk, i ≠ .rnd x kk) → t.draws = s.draws)

/-- R32, R239: the program never learns ST or the frame output: changing them before an instruction changes nothing but
them after it (FX18, which overwrites ST, included). -/
def Obligations.SoundAndFrameAreNotObserved : Prop :=
  ∀ (i : Instr) (s : State) (st : Byte) (frame : Frame),
    ((∀ x, i ≠ .ldSTX x) → exec i { s with st := st, frameOut := frame } =
      mapNext (fun t => { t with st := st, frameOut := frame }) (exec i s)) ∧
    ((∃ x, i = .ldSTX x) → exec i { s with st := st, frameOut := frame } =
      mapNext (fun t => { t with frameOut := frame }) (exec i s))

/-! ### Reset, load, invariants -/

/-- R271, R272: the first instruction is at 0x200, and the 80 bytes of the font stand at 0x000 to 0x04F. (Which bytes
they are: FontGlyphsStandAtReset.) -/
def Obligations.ResetEntersAt200WithTheFont : Prop :=
  State.reset.pc = 0x200#16 ∧ Config.font.length = 80 ∧
    (∀ a : Fin 80, State.reset.mem.byteAt a.val = Config.font.getD a.val 0) ∧
    (∀ (m : Memory) (op : Word) (i : Instr) (later : List Event),
      fetchWord m 0x200 = .ok op → decodeWord op = .ok i →
      step { State.reset with mem := m, pending := .cycle :: later } =
        exec i { State.reset with mem := m, pending := later, pc := 0x202 })

/-- R42, R270 (the spec's decision D21, log entry 10): at reset V0 to VF, I, SP, the stack, DT and ST are zero, both
planes are off, no key is latched, memory from 0x050 on is zero and no fault stands. That the run is already running is
the model's choice (log entry 7). -/
def Obligations.ResetIsZeroElsewhere : Prop :=
  (∀ r, State.reset.getV r = 0) ∧ State.reset.i = 0 ∧ State.reset.sp = 0 ∧
  (∀ k : Fin 16, State.reset.stack.get k = 0) ∧ State.reset.dt = 0 ∧ State.reset.st = 0 ∧
  (∀ y x, State.reset.display.pixel y x = false ∧ State.reset.display.shown y x = .background) ∧
  State.reset.latch = none ∧ (∀ a, 80 ≤ a → State.reset.mem.byteAt a = 0) ∧
  State.reset.runState = .running ∧ State.reset.fault = none

/-- R278 (refusing a longer program is the spec's decision D28): a program of at most 3584 bytes is written verbatim
from 0x200 and nothing else changes; a longer one is refused. R278 defines a load before the first event only; that
`State.load` is a function on any state, and so is spoken of on every state here, is the model's choice (log entry 7),
and so is the canonical form of memory, which a load needs and keeps (log entry 8). -/
def Obligations.LoadWritesTheProgram : Prop :=
  ∀ (s : State) (program : List Byte), s.mem.wf →
    (program.length ≤ 3584 → ∃ t, s.load program = .next t ∧
      (∀ (j : Nat) (h : j < program.length), t.mem.byteAt (0x200 + j) = program[j]) ∧
      Unchanged [] (bytesAt 0x200 program.length) s t ∧ t.mem.wf) ∧
    (3584 < program.length → s.load program = .refused .programTooLong)

/-- R34, R41, R195, R197 (the spec's decisions D25, D36): every step keeps the presentation plane the colours of the
logical plane, a fault record exactly when the run is faulted and properly filled, and the fallback colour out of the
frame. Memory's canonical form and the colours as names are the model's choices (log entries 8 and 5). -/
def Obligations.StepKeepsTheInvariant : Prop :=
  ∀ s t : State, Inv s → step s = .next t → Inv t

/-- R25 (derived there; the spec's decisions D34, D35): every step keeps `pc` at most 0x10FE and the return addresses in
use at most 0x1000. -/
def Obligations.StepKeepsPcBounded : Prop :=
  ∀ s t : State, PcBounded s → step s = .next t → PcBounded t

/-- Both invariants hold at reset, whose values R42 gives by the spec's decision D21. That the frame output is all
background there, and so without the fallback colour, is the model's choice (log entry 6), and so is memory's canonical
form (log entry 8). -/
def Obligations.ResetMeetsTheInvariants : Prop :=
  Inv State.reset ∧ PcBounded State.reset

/-! ### Policies and runs -/

/-- R7, R150, R152, R175, R176 (the spec's decisions D10, D11): the alternatives of the two policies. With
`SHIFT_SOURCE = Vy` the shifts take Vy; with `LOADSTORE_INCREMENTS_I` the block moves also add `x + 1` to I, and do
nothing else differently. That VF ends as the flag when `x = F` is the spec's decision D8. -/
def Obligations.PolicyAlternatives : Prop :=
  ∀ (x y : Reg) (s : State),
    (∃ t, execShrWith .vy x y s = .next t ∧ (x ≠ vF → (t.getV x).toNat = (s.getV y).toNat / 2) ∧
      (t.getV vF).toNat = (s.getV y).toNat % 2 ∧ Unchanged [.reg x, .reg vF] nothing s t) ∧
    (∃ t, execShlWith .vy x y s = .next t ∧ (x ≠ vF → (t.getV x).toNat = (s.getV y).toNat * 2 % 256) ∧
      (t.getV vF).toNat = (s.getV y).toNat / 128 ∧ Unchanged [.reg x, .reg vF] nothing s t) ∧
    (s.i.toNat + x.val < 4096 →
      (∃ t, exec (.ldMemX x) s = .next t ∧
        execLdMemXWith true x s = .next { t with i := BitVec.ofNat 16 (s.i.toNat + x.val + 1) }) ∧
      (∃ t, exec (.ldXMem x) s = .next t ∧
        execLdXMemWith true x s = .next { t with i := BitVec.ofNat 16 (s.i.toNat + x.val + 1) }))

/-- R103, R260 (the spec's decision D33): at a jump to itself a CYCLE changes nothing (the model's schedule, log entry
2, moves on). -/
def Obligations.SelfJumpIsFinal : Prop :=
  ∀ s : State, s.runState = .running → s.nextEvent = .cycle → AtSelfJump s → step s = .next s.takeEvent

/-- R39, R220, R250 (the spec's decision D18): while the CPU waits for a key, any run of cycles, ticks and empty samples
leaves it waiting at the same instruction, with only the timers counted down by the ticks and the frame renewed. The
run is the schedule the model holds in `pending` (log entry 2). -/
def Obligations.WaitingBlocksNothing : Prop :=
  ∀ (s : State) (x : Reg) (events : List Event), s.runState = .running → WaitingForKey s x →
    (∀ e ∈ events, Idle e) → s.pending = events →
    ∃ t, Host.Core.run Sys2Proof.core events.length s = .next t ∧ WaitingForKey t x ∧
      t.dt.toNat = s.dt.toNat - events.count .tick ∧ t.st.toNat = s.st.toNat - events.count .tick ∧
      Unchanged [.delayTimer, .soundTimer, .frameOut, .pending] nothing s t

/-- R220, R258 (the spec's decision D18): a key sampled while the CPU waits is read by the next CYCLE, which then moves
on. The run is the schedule the model holds in `pending` (log entry 2). -/
def Obligations.SampledKeyEndsTheWait : Prop :=
  ∀ (s : State) (x : Reg) (k : Key) (events : List Event), s.runState = .running → WaitingForKey s x →
    (∀ e ∈ events, Idle e) → s.pending = events ++ [.sample (some k), .cycle] →
    ∃ t, Host.Core.run Sys2Proof.core (events.length + 2) s = .next t ∧
      (t.getV x).toNat = k.toNat ∧ t.pc = s.pc + 2 ∧ t.latch = some k ∧
      Unchanged [.reg x, .pc, .latch, .delayTimer, .soundTimer, .frameOut, .pending] nothing s t

/-- R250, R253 (the spec's decisions D18, D26): under every weakly fair schedule that brings no key and no STOP, the
delay timer of a waiting CPU reaches 0. Fairness as a predicate on schedules is the model's choice (log entry 14), and
so is the schedule held in `pending` (log entry 2). -/
def Obligations.FairTicksExpireTheTimer : Prop :=
  ∀ (schedule : Nat → Event) (s : State) (x : Reg), Fair schedule → (∀ n, Idle (schedule n)) →
    s.runState = .running → WaitingForKey s x →
    ∃ n t, runUnder schedule n s = .next t ∧ t.dt = 0 ∧ t.pc = s.pc ∧ WaitingForKey t x

/-! ### The font -/

/-- R38, R272: the 80 bytes of the font stand in memory at reset, glyph by glyph as R38's table gives them, and every
program load leaves them. The bytes are the spec's general knowledge (its decision D22, log entry 11). -/
def Obligations.FontGlyphsStandAtReset : Prop :=
  State.reset.mem.bytesFrom 0x000 5 = [0xF0, 0x90, 0x90, 0x90, 0xF0] ∧
  State.reset.mem.bytesFrom 0x005 5 = [0x20, 0x60, 0x20, 0x20, 0x70] ∧
  State.reset.mem.bytesFrom 0x00A 5 = [0xF0, 0x10, 0xF0, 0x80, 0xF0] ∧
  State.reset.mem.bytesFrom 0x00F 5 = [0xF0, 0x10, 0xF0, 0x10, 0xF0] ∧
  State.reset.mem.bytesFrom 0x014 5 = [0x90, 0x90, 0xF0, 0x10, 0x10] ∧
  State.reset.mem.bytesFrom 0x019 5 = [0xF0, 0x80, 0xF0, 0x10, 0xF0] ∧
  State.reset.mem.bytesFrom 0x01E 5 = [0xF0, 0x80, 0xF0, 0x90, 0xF0] ∧
  State.reset.mem.bytesFrom 0x023 5 = [0xF0, 0x10, 0x20, 0x40, 0x40] ∧
  State.reset.mem.bytesFrom 0x028 5 = [0xF0, 0x90, 0xF0, 0x90, 0xF0] ∧
  State.reset.mem.bytesFrom 0x02D 5 = [0xF0, 0x90, 0xF0, 0x10, 0xF0] ∧
  State.reset.mem.bytesFrom 0x032 5 = [0xF0, 0x90, 0xF0, 0x90, 0x90] ∧
  State.reset.mem.bytesFrom 0x037 5 = [0xE0, 0x90, 0xE0, 0x90, 0xE0] ∧
  State.reset.mem.bytesFrom 0x03C 5 = [0xF0, 0x80, 0x80, 0x80, 0xF0] ∧
  State.reset.mem.bytesFrom 0x041 5 = [0xE0, 0x90, 0x90, 0x90, 0xE0] ∧
  State.reset.mem.bytesFrom 0x046 5 = [0xF0, 0x80, 0xF0, 0x80, 0xF0] ∧
  State.reset.mem.bytesFrom 0x04B 5 = [0xF0, 0x80, 0xF0, 0x80, 0x80] ∧
  ∀ (program : List Byte) (t : State), State.reset.load program = .next t →
    ∀ a : Nat, a < 80 → t.mem.byteAt a = State.reset.mem.byteAt a
end

