-- ==== Sys2Proof/Laws/Decode.lean ====
section
/-! SUPPORT. The fields of an encoded word (R81, R82), field by field of each format, and the fields as arithmetic on
the word's number. -/

namespace Sys2Proof

@[simp] theorem regField_toNat (x : Fin 16) : (regField x).toNat = x.val := rfl

theorem fieldF_val (op : Word) : (fieldF op).val = op.toNat / 4096 := by
  have := op.isLt
  simp [fieldF, Nat.shiftRight_eq_div_pow]; omega

theorem fieldX_val (op : Word) : (fieldX op).val = op.toNat / 256 % 16 := by
  simp [fieldX, Nat.shiftRight_eq_div_pow]

theorem fieldY_val (op : Word) : (fieldY op).val = op.toNat / 16 % 16 := by
  simp [fieldY, Nat.shiftRight_eq_div_pow]

theorem fieldN_val (op : Word) : (fieldN op).val = op.toNat % 16 := by
  simp [fieldN]

theorem fieldKK_toNat (op : Word) : (fieldKK op).toNat = op.toNat % 256 := by
  simp [fieldKK, BitVec.extractLsb'_toNat]

theorem fieldNNN_toNat (op : Word) : (fieldNNN op).toNat = op.toNat % 4096 := by
  simp [fieldNNN, BitVec.extractLsb'_toNat]

theorem formatAddr_toNat (f : BitVec 4) (nnn : Addr12) :
    (formatAddr f nnn).toNat = 4096 * f.toNat + nnn.toNat := by
  have := nnn.isLt
  rw [formatAddr, BitVec.toNat_append, Nat.shiftLeft_eq, ← Nat.mul_comm (2 ^ 12),
    ← Nat.two_pow_add_eq_or_of_lt this]

theorem formatRImm_toNat (f : BitVec 4) (x : Reg) (kk : Byte) :
    (formatRImm f x kk).toNat = 4096 * f.toNat + 256 * x.val + kk.toNat := by
  have h1 := kk.isLt
  have h2 := (regField x).isLt
  rw [formatRImm, BitVec.toNat_append, Nat.shiftLeft_eq, ← Nat.mul_comm (2 ^ 8),
    ← Nat.two_pow_add_eq_or_of_lt h1, BitVec.toNat_append, Nat.shiftLeft_eq, ← Nat.mul_comm (2 ^ 4),
    ← Nat.two_pow_add_eq_or_of_lt h2, regField_toNat]
  omega

theorem formatRR_toNat (f : BitVec 4) (x y : Reg) (n : BitVec 4) :
    (formatRR f x y n).toNat = 4096 * f.toNat + 256 * x.val + 16 * y.val + n.toNat := by
  have h1 := n.isLt
  have h2 := (regField y).isLt
  have h3 := (regField x).isLt
  rw [formatRR, BitVec.toNat_append, Nat.shiftLeft_eq, ← Nat.mul_comm (2 ^ 4),
    ← Nat.two_pow_add_eq_or_of_lt h1, BitVec.toNat_append, Nat.shiftLeft_eq, ← Nat.mul_comm (2 ^ 4),
    ← Nat.two_pow_add_eq_or_of_lt h2, BitVec.toNat_append, Nat.shiftLeft_eq, ← Nat.mul_comm (2 ^ 4),
    ← Nat.two_pow_add_eq_or_of_lt h3, regField_toNat, regField_toNat]
  omega

section Fields
variable (f : BitVec 4) (x y : Reg) (n : BitVec 4) (kk : Byte) (nnn : Addr12)

@[simp] theorem fieldF_formatAddr : (fieldF (formatAddr f nnn)).val = f.toNat := by
  have := nnn.isLt; rw [fieldF_val, formatAddr_toNat]; omega

@[simp] theorem fieldNNN_formatAddr : fieldNNN (formatAddr f nnn) = nnn := by
  have := nnn.isLt; apply BitVec.eq_of_toNat_eq; rw [fieldNNN_toNat, formatAddr_toNat]; omega

@[simp] theorem fieldF_formatRImm : (fieldF (formatRImm f x kk)).val = f.toNat := by
  have := kk.isLt; rw [fieldF_val, formatRImm_toNat]; omega

@[simp] theorem fieldX_formatRImm : fieldX (formatRImm f x kk) = x := by
  have := kk.isLt; apply Fin.ext; rw [fieldX_val, formatRImm_toNat]; omega

@[simp] theorem fieldKK_formatRImm : fieldKK (formatRImm f x kk) = kk := by
  have := kk.isLt; apply BitVec.eq_of_toNat_eq; rw [fieldKK_toNat, formatRImm_toNat]; omega

@[simp] theorem fieldF_formatRR : (fieldF (formatRR f x y n)).val = f.toNat := by
  have := n.isLt; rw [fieldF_val, formatRR_toNat]; omega

@[simp] theorem fieldX_formatRR : fieldX (formatRR f x y n) = x := by
  have := n.isLt; apply Fin.ext; rw [fieldX_val, formatRR_toNat]; omega

@[simp] theorem fieldY_formatRR : fieldY (formatRR f x y n) = y := by
  have := n.isLt; apply Fin.ext; rw [fieldY_val, formatRR_toNat]; omega

@[simp] theorem fieldN_formatRR : (fieldN (formatRR f x y n)).val = n.toNat := by
  have := n.isLt; rw [fieldN_val, formatRR_toNat]; omega

end Fields

/-! ### What a masked word says of its fields (the masks of the opcode table) -/

theorem family_of_mask {op k : Word} (h : op &&& 0xF000 = k) : op.toNat / 4096 = k.toNat / 4096 := by
  subst h
  have := op.isLt
  rw [BitVec.toNat_and]
  show op.toNat / 2 ^ 12 = _ / 2 ^ 12
  rw [← Nat.shiftRight_eq_div_pow, ← Nat.shiftRight_eq_div_pow, Nat.shiftRight_and_distrib]
  show _ = op.toNat >>> 12 &&& 2 ^ 4 - 1
  rw [Nat.and_two_pow_sub_one_eq_mod, Nat.mod_eq_of_lt]
  rw [Nat.shiftRight_eq_div_pow]; omega

theorem family_nibble_of_mask {op k : Word} (h : op &&& 0xF00F = k) :
    op.toNat / 4096 = k.toNat / 4096 ∧ op.toNat % 16 = k.toNat % 16 := by
  have h1 : op &&& 0xF000 = k &&& 0xF000 := by rw [← h, BitVec.and_assoc]; rfl
  have h2 : op &&& 0x000F = k &&& 0x000F := by rw [← h, BitVec.and_assoc]; rfl
  refine ⟨(family_of_mask h1).trans (family_of_mask rfl).symm, ?_⟩
  have h3 := congrArg BitVec.toNat h2
  rw [BitVec.toNat_and, BitVec.toNat_and] at h3
  exact (Nat.and_two_pow_sub_one_eq_mod op.toNat 4).symm.trans
    (h3.trans (Nat.and_two_pow_sub_one_eq_mod k.toNat 4))

theorem family_byte_of_mask {op k : Word} (h : op &&& 0xF0FF = k) :
    op.toNat / 4096 = k.toNat / 4096 ∧ op.toNat % 256 = k.toNat % 256 := by
  have h1 : op &&& 0xF000 = k &&& 0xF000 := by rw [← h, BitVec.and_assoc]; rfl
  have h2 : op &&& 0x00FF = k &&& 0x00FF := by rw [← h, BitVec.and_assoc]; rfl
  refine ⟨(family_of_mask h1).trans (family_of_mask rfl).symm, ?_⟩
  have h3 := congrArg BitVec.toNat h2
  rw [BitVec.toNat_and, BitVec.toNat_and] at h3
  exact (Nat.and_two_pow_sub_one_eq_mod op.toNat 8).symm.trans
    (h3.trans (Nat.and_two_pow_sub_one_eq_mod k.toNat 8))

theorem word_of_full_mask {op k : Word} (h : op &&& 0xFFFF = k) : op = k :=
  (BitVec.and_allOnes (x := op)).symm.trans h

/-- A word is its family, then its fields, as a number. -/
theorem word_split (op : Word) :
    op.toNat = 4096 * (fieldF op).val + 256 * (fieldX op).val + 16 * (fieldY op).val + (fieldN op).val := by
  have := op.isLt
  rw [fieldF_val, fieldX_val, fieldY_val, fieldN_val]; omega

theorem wordOfBytes_toNat (hi lo : Byte) : (wordOfBytes hi lo).toNat = 256 * hi.toNat + lo.toNat := by
  have := lo.isLt
  rw [wordOfBytes, BitVec.toNat_append, Nat.shiftLeft_eq, ← Nat.mul_comm (2 ^ 8),
    ← Nat.two_pow_add_eq_or_of_lt this]

theorem highByte_toNat (w : Word) : (highByte w).toNat = w.toNat / 256 := by
  have := w.isLt
  simp [highByte, BitVec.extractLsb'_toNat, Nat.shiftRight_eq_div_pow]; omega

theorem lowByte_toNat (w : Word) : (lowByte w).toNat = w.toNat % 256 := by
  simp [lowByte, BitVec.extractLsb'_toNat]

/-- The bytes of a word, put together again (R54, R80). -/
@[simp] theorem wordOfBytes_high_low (w : Word) : wordOfBytes (highByte w) (lowByte w) = w := by
  apply BitVec.eq_of_toNat_eq
  rw [wordOfBytes_toNat, highByte_toNat, lowByte_toNat]; omega

@[simp] theorem zext16_toNat (nnn : Addr12) : (zext16 nnn).toNat = nnn.toNat := by
  have := nnn.isLt
  simp [zext16]; omega

@[simp] theorem zext8_toNat (k : Key) : (zext8 k).toNat = k.toNat := by
  have := k.isLt
  simp [zext8]; omega

end Sys2Proof
end

