-- ==== Sys2Proof/Laws/Memory.lean ====
section
/-! SUPPORT. Memory: read after write, the canonical form is kept by every operation, equal bytes are equal
memories, and what the block operations and the fetch answer. -/

namespace Sys2Proof.Machine

theorem Memory.wf_nil : Memory.wf [] := by simp [Memory.wf]

theorem Memory.wf_tail {c : Host.Cell} {m : Memory} (h : Memory.wf (c :: m)) : Memory.wf m :=
  ⟨(List.pairwise_cons.1 h.1).2, fun d hd => h.2 d (List.mem_cons_of_mem _ hd)⟩

/-- An address below every listed one reads as its reset contents. -/
theorem Memory.byteAt_of_lt {m : Memory} {a : Nat} (h : ∀ c ∈ m, a < c.1) : Memory.byteAt m a = resetByte a := by
  induction m with
  | nil => rfl
  | cons c m ih =>
    have hne : a ≠ c.1 := by have := h c (by simp); omega
    simp [Memory.byteAt, hne, ih (fun d hd => h d (List.mem_cons_of_mem _ hd))]

/-- Read after write, at any address. -/
theorem Memory.byteAt_put {m : Memory} (h : m.wf) (a b : Nat) (w : Byte) :
    Memory.byteAt (Memory.put m a w) b = if b = a then w else Memory.byteAt m b := by
  induction m with
  | nil =>
    by_cases hw : w = resetByte a <;> by_cases hb : b = a <;> simp_all [Memory.put, Memory.byteAt]
  | cons c m ih =>
    obtain ⟨k, u⟩ := c
    have hlow : ∀ d ∈ m, k < d.1 := (List.pairwise_cons.1 h.1).1
    have hk : Memory.byteAt m k = resetByte k := Memory.byteAt_of_lt hlow
    have ih := ih (Memory.wf_tail h)
    rcases Nat.lt_trichotomy a k with hak | rfl | hak
    · have ha : Memory.byteAt m a = resetByte a :=
        Memory.byteAt_of_lt (fun d hd => Nat.lt_trans hak (hlow d hd))
      by_cases hw : w = resetByte a <;> by_cases hb : b = a <;>
        simp_all [Memory.put, Memory.byteAt, Nat.ne_of_lt hak]
    · by_cases hw : w = resetByte a <;> by_cases hb : b = a <;> simp_all [Memory.put, Memory.byteAt]
    · have h1 : ¬ a < k := by omega
      have h2 : a ≠ k := by omega
      by_cases hb : b = k
      · subst hb; simp [Memory.put, Memory.byteAt, h1, h2, Ne.symm h2]
      · simp [Memory.put, Memory.byteAt, h1, h2, hb, ih]

/-- A put adds no address but its own. -/
theorem Memory.mem_put {m : Memory} {a : Nat} {w : Byte} {c : Host.Cell} (h : c ∈ Memory.put m a w) :
    c ∈ m ∨ (c = (a, w) ∧ w ≠ resetByte a) := by
  induction m with
  | nil => by_cases hw : w = resetByte a <;> simp_all [Memory.put]
  | cons d m ih =>
    obtain ⟨k, u⟩ := d
    rcases Nat.lt_trichotomy a k with hak | rfl | hak
    · by_cases hw : w = resetByte a
      · simp_all [Memory.put]
      · simp only [Memory.put, hak, if_true, hw, if_false, List.mem_cons] at h ⊢
        tauto
    · by_cases hw : w = resetByte a
      · simp_all [Memory.put]
      · simp only [Memory.put, lt_irrefl, if_true, hw, if_false, List.mem_cons] at h ⊢
        tauto
    · have h1 : ¬ a < k := by omega
      have h2 : a ≠ k := by omega
      simp only [Memory.put, h1, h2, if_false, List.mem_cons] at h ⊢
      rcases h with h | h
      · exact .inl (.inl h)
      · exact (ih h).imp .inr id

/-- A put inside the address space keeps the canonical form. -/
theorem Memory.wf_put {m : Memory} (h : m.wf) {a : Nat} (ha : a < Config.memSize) (w : Byte) :
    (m.put a w).wf := by
  refine ⟨?_, ?_⟩
  · induction m with
    | nil => by_cases hw : w = resetByte a <;> simp [Memory.put, hw]
    | cons d m ih =>
      obtain ⟨k, u⟩ := d
      have hlow : ∀ d ∈ m, k < d.1 := (List.pairwise_cons.1 h.1).1
      have htail := (Memory.wf_tail h).1
      rcases Nat.lt_trichotomy a k with hak | rfl | hak
      · by_cases hw : w = resetByte a
        · simpa [Memory.put, hak, hw] using h.1
        · simp only [Memory.put, hak, if_true, hw, if_false, List.pairwise_cons]
          refine ⟨?_, hlow, htail⟩
          intro c hc
          rcases List.mem_cons.1 hc with rfl | hc
          · exact hak
          · exact Nat.lt_trans hak (hlow c hc)
      · by_cases hw : w = resetByte a
        · simpa [Memory.put, hw] using htail
        · simp only [Memory.put, lt_irrefl, if_true, hw, if_false, List.pairwise_cons]
          exact ⟨hlow, htail⟩
      · have h1 : ¬ a < k := by omega
        have h2 : a ≠ k := by omega
        simp only [Memory.put, h1, h2, if_false, List.pairwise_cons]
        refine ⟨fun c hc => ?_, ih (Memory.wf_tail h)⟩
        rcases Memory.mem_put hc with hc | ⟨rfl, -⟩
        · exact hlow c hc
        · exact hak
  · intro c hc
    rcases Memory.mem_put hc with hc | ⟨rfl, hw⟩
    · exact h.2 c hc
    · exact ⟨ha, hw⟩

/-- What a byte reads as after a block of bytes is put. -/
theorem Memory.byteAt_putBytes {m : Memory} (h : m.wf) (a : Nat) (bs : List Byte)
    (hend : a + bs.length ≤ Config.memSize) (b : Nat) :
    Memory.byteAt (Memory.putBytes m a bs) b =
      if hb : a ≤ b ∧ b < a + bs.length then bs[b - a]'(by omega) else Memory.byteAt m b := by
  induction bs generalizing m a with
  | nil =>
    have hb : ¬ (a ≤ b ∧ b < a + ([] : List Byte).length) := by simp only [List.length_nil]; omega
    rw [dif_neg hb]; rfl
  | cons w bs ih =>
    simp only [List.length_cons] at hend
    have hwf := Memory.wf_put h (a := a) (by omega) w
    rw [Memory.putBytes, ih hwf (a + 1) (by omega)]
    by_cases h0 : b = a
    · subst h0
      rw [dif_neg (by omega), dif_pos (by simp only [List.length_cons]; omega)]
      simp [Memory.byteAt_put h]
    · by_cases h1 : a + 1 ≤ b ∧ b < a + 1 + bs.length
      · rw [dif_pos h1, dif_pos (by simp only [List.length_cons]; omega)]
        obtain ⟨j, rfl⟩ : ∃ j, b = a + 1 + j := ⟨b - (a + 1), by omega⟩
        have e1 : a + 1 + j - (a + 1) = j := by omega
        have e2 : a + 1 + j - a = j + 1 := by omega
        simp [e1, e2]
      · rw [dif_neg h1, dif_neg (by simp only [List.length_cons]; omega), Memory.byteAt_put h, if_neg h0]

/-- Putting a block inside the address space keeps the canonical form. -/
theorem Memory.wf_putBytes {m : Memory} (h : m.wf) (a : Nat) (bs : List Byte)
    (hend : a + bs.length ≤ Config.memSize) : (m.putBytes a bs).wf := by
  induction bs generalizing m a with
  | nil => exact h
  | cons w bs ih =>
    simp only [List.length_cons] at hend
    exact ih (Memory.wf_put h (by omega) w) (a + 1) (by omega)

/-- A single bus write keeps the canonical form (R60). -/
theorem Memory.wf_write {m m' : Memory} (h : m.wf) {a : Nat} {w : Byte} (hw : m.write a w = .ok m') :
    m'.wf := by
  unfold Memory.write at hw
  split at hw
  · cases hw; exact Memory.wf_put h ‹_› w
  · cases hw

/-- Two canonical memories that read alike everywhere are the same list. -/
theorem Memory.eq_of_byteAt {m n : Memory} (hm : m.wf) (hn : n.wf)
    (h : ∀ a, Memory.byteAt m a = Memory.byteAt n a) : m = n := by
  induction m generalizing n with
  | nil =>
    cases n with
    | nil => rfl
    | cons d n =>
      have := h d.1
      simp only [Memory.byteAt, if_true] at this
      exact absurd this.symm (hn.2 d (by simp)).2
  | cons c m ih =>
    obtain ⟨k, u⟩ := c
    have hcm := List.pairwise_cons.1 hm.1
    have hku : u ≠ resetByte k := (hm.2 (k, u) (by simp)).2
    cases n with
    | nil =>
      have := h k
      simp only [Memory.byteAt, if_true] at this
      exact absurd this hku
    | cons d n =>
      obtain ⟨l, w⟩ := d
      have hdn := List.pairwise_cons.1 hn.1
      have hlw : w ≠ resetByte l := (hn.2 (l, w) (by simp)).2
      have hkl : k = l := by
        rcases Nat.lt_trichotomy k l with hlt | heq | hgt
        · have := h k
          rw [Memory.byteAt_of_lt (m := (l, w) :: n)] at this
          · simp only [Memory.byteAt, if_true] at this
            exact absurd this hku
          · intro c hc
            rcases List.mem_cons.1 hc with rfl | hc
            · exact hlt
            · exact Nat.lt_trans hlt (hdn.1 c hc)
        · exact heq
        · have := h l
          rw [Memory.byteAt_of_lt (m := (k, u) :: m)] at this
          · simp only [Memory.byteAt, if_true] at this
            exact absurd this.symm hlw
          · intro c hc
            rcases List.mem_cons.1 hc with rfl | hc
            · exact hgt
            · exact Nat.lt_trans hgt (hcm.1 c hc)
      subst hkl
      have huw : u = w := by simpa [Memory.byteAt] using h k
      subst huw
      have hmn : m = n := by
        refine ih (Memory.wf_tail hm) (Memory.wf_tail hn) (fun a => ?_)
        by_cases ha : a = k
        · subst ha
          rw [Memory.byteAt_of_lt hcm.1, Memory.byteAt_of_lt hdn.1]
        · simpa [Memory.byteAt, ha] using h a
      rw [hmn]

@[simp] theorem Memory.bytesFrom_length (m : Memory) (a len : Nat) : (m.bytesFrom a len).length = len := by
  induction len generalizing a with
  | zero => rfl
  | succ len ih => simp [Memory.bytesFrom, ih]

@[simp] theorem Memory.bytesFrom_getElem (m : Memory) (a len k : Nat) (h : k < (m.bytesFrom a len).length) :
    (m.bytesFrom a len)[k] = Memory.byteAt m (a + k) := by
  induction len generalizing a k with
  | zero => simp at h
  | succ len ih =>
    cases k with
    | zero => rfl
    | succ k =>
      simp only [Memory.bytesFrom, List.getElem_cons_succ]
      rw [ih]; congr 1; omega

/-- No address of the range is out of range exactly when the range ends inside memory. -/
theorem firstBadAddress_eq_none {base len : Nat} :
    firstBadAddress base len = none ↔ len = 0 ∨ base + len ≤ 4096 := by
  unfold firstBadAddress
  split <;> simp_all <;> omega

/-- What is answered otherwise: the larger of the base and 4096. -/
theorem firstBadAddress_eq_some {base len bad : Nat} :
    firstBadAddress base len = some bad ↔ 0 < len ∧ 4096 < base + len ∧ bad = max base 4096 := by
  unfold firstBadAddress
  split
  · simp_all
    constructor
    · rintro rfl; omega
    · rintro ⟨-, rfl⟩; rfl
  · simp_all
    intro h1 h2; omega

/-- Everything a block read can answer. -/
theorem Memory.readBlock_cases (m : Memory) (a len : Nat) :
    (m.readBlock a len = .ok (m.bytesFrom a len) ∧ (len = 0 ∨ a + len ≤ 4096)) ∨
    (m.readBlock a len = .error (max a 4096) ∧ 0 < len ∧ 4096 < a + len) := by
  unfold Memory.readBlock
  cases h : firstBadAddress a len with
  | none => exact .inl ⟨rfl, firstBadAddress_eq_none.1 h⟩
  | some bad =>
    obtain ⟨h1, h2, rfl⟩ := firstBadAddress_eq_some.1 h
    exact .inr ⟨rfl, h1, h2⟩

/-- Everything a block write can answer. -/
theorem Memory.writeBlock_cases (m : Memory) (a : Nat) (bs : List Byte) :
    (m.writeBlock a bs = .ok (m.putBytes a bs) ∧ (bs.length = 0 ∨ a + bs.length ≤ 4096)) ∨
    (m.writeBlock a bs = .error (max a 4096) ∧ 0 < bs.length ∧ 4096 < a + bs.length) := by
  unfold Memory.writeBlock
  cases h : firstBadAddress a bs.length with
  | none => exact .inl ⟨rfl, firstBadAddress_eq_none.1 h⟩
  | some bad =>
    obtain ⟨h1, h2, rfl⟩ := firstBadAddress_eq_some.1 h
    exact .inr ⟨rfl, h1, h2⟩

/-- A block write keeps the canonical form. -/
theorem Memory.wf_writeBlock {m m' : Memory} (h : m.wf) {a : Nat} {bs : List Byte}
    (hw : m.writeBlock a bs = .ok m') : m'.wf := by
  rcases Memory.writeBlock_cases m a bs with ⟨he, hlen | hlen⟩ | ⟨he, -⟩
  · rw [he] at hw; cases hw
    rw [List.eq_nil_of_length_eq_zero hlen]; exact h
  · rw [he] at hw; cases hw
    exact Memory.wf_putBytes h a bs hlen
  · rw [he] at hw; cases hw

/-- Everything a fetch can answer (R55, R234). -/
theorem fetchWord_cases (m : Memory) (a : Nat) :
    (fetchWord m a = .ok (wordOfBytes (Memory.byteAt m a) (Memory.byteAt m (a + 1))) ∧ a + 1 < 4096) ∨
    (fetchWord m a = .error a ∧ 4096 ≤ a) ∨
    (fetchWord m a = .error (a + 1) ∧ a + 1 = 4096) := by
  unfold fetchWord Memory.read
  by_cases h0 : a < 4096
  · by_cases h1 : a + 1 < 4096
    · simp [h0, h1]
    · simp [h0, h1]; omega
  · simp [h0]; omega

theorem fetchWord_ok {m : Memory} {a : Nat} (h : a + 1 < 4096) :
    fetchWord m a = .ok (wordOfBytes (Memory.byteAt m a) (Memory.byteAt m (a + 1))) := by
  have h0 : a < 4096 := by omega
  simp [fetchWord, Memory.read, h0, h]

theorem Memory.reset_wf : State.reset.mem.wf := Memory.wf_nil

end Sys2Proof.Machine
end

