-- ==== Sys2Proof/Laws/State.lean ====
section
/-! SUPPORT. One lemma per field per named update of State, so that no proof unfolds a record update. -/

namespace Sys2Proof.Machine

variable (s : State)

@[simp] theorem State.setV_v (x : Reg) (b : Byte) : (s.setV x b).v = s.v.set x.val b x.isLt := rfl
@[simp] theorem State.setV_i (x : Reg) (b : Byte) : (s.setV x b).i = s.i := rfl
@[simp] theorem State.setV_pc (x : Reg) (b : Byte) : (s.setV x b).pc = s.pc := rfl
@[simp] theorem State.setV_sp (x : Reg) (b : Byte) : (s.setV x b).sp = s.sp := rfl
@[simp] theorem State.setV_stack (x : Reg) (b : Byte) : (s.setV x b).stack = s.stack := rfl
@[simp] theorem State.setV_dt (x : Reg) (b : Byte) : (s.setV x b).dt = s.dt := rfl
@[simp] theorem State.setV_st (x : Reg) (b : Byte) : (s.setV x b).st = s.st := rfl
@[simp] theorem State.setV_display (x : Reg) (b : Byte) : (s.setV x b).display = s.display := rfl
@[simp] theorem State.setV_latch (x : Reg) (b : Byte) : (s.setV x b).latch = s.latch := rfl
@[simp] theorem State.setV_mem (x : Reg) (b : Byte) : (s.setV x b).mem = s.mem := rfl
@[simp] theorem State.setV_runState (x : Reg) (b : Byte) : (s.setV x b).runState = s.runState := rfl
@[simp] theorem State.setV_fault (x : Reg) (b : Byte) : (s.setV x b).fault = s.fault := rfl
@[simp] theorem State.setV_frameOut (x : Reg) (b : Byte) : (s.setV x b).frameOut = s.frameOut := rfl
@[simp] theorem State.setV_draws (x : Reg) (b : Byte) : (s.setV x b).draws = s.draws := rfl
@[simp] theorem State.setV_pending (x : Reg) (b : Byte) : (s.setV x b).pending = s.pending := rfl

@[simp] theorem State.setI_v (w : Word) : (s.setI w).v = s.v := rfl
@[simp] theorem State.setI_i (w : Word) : (s.setI w).i = w := rfl
@[simp] theorem State.setI_pc (w : Word) : (s.setI w).pc = s.pc := rfl
@[simp] theorem State.setI_sp (w : Word) : (s.setI w).sp = s.sp := rfl
@[simp] theorem State.setI_stack (w : Word) : (s.setI w).stack = s.stack := rfl
@[simp] theorem State.setI_dt (w : Word) : (s.setI w).dt = s.dt := rfl
@[simp] theorem State.setI_st (w : Word) : (s.setI w).st = s.st := rfl
@[simp] theorem State.setI_display (w : Word) : (s.setI w).display = s.display := rfl
@[simp] theorem State.setI_latch (w : Word) : (s.setI w).latch = s.latch := rfl
@[simp] theorem State.setI_mem (w : Word) : (s.setI w).mem = s.mem := rfl
@[simp] theorem State.setI_runState (w : Word) : (s.setI w).runState = s.runState := rfl
@[simp] theorem State.setI_fault (w : Word) : (s.setI w).fault = s.fault := rfl
@[simp] theorem State.setI_frameOut (w : Word) : (s.setI w).frameOut = s.frameOut := rfl
@[simp] theorem State.setI_draws (w : Word) : (s.setI w).draws = s.draws := rfl
@[simp] theorem State.setI_pending (w : Word) : (s.setI w).pending = s.pending := rfl
@[simp] theorem State.setI_getV (w : Word) (r : Reg) : (s.setI w).getV r = s.getV r := rfl

@[simp] theorem State.setPc_v (w : Word) : (s.setPc w).v = s.v := rfl
@[simp] theorem State.setPc_i (w : Word) : (s.setPc w).i = s.i := rfl
@[simp] theorem State.setPc_pc (w : Word) : (s.setPc w).pc = w := rfl
@[simp] theorem State.setPc_sp (w : Word) : (s.setPc w).sp = s.sp := rfl
@[simp] theorem State.setPc_stack (w : Word) : (s.setPc w).stack = s.stack := rfl
@[simp] theorem State.setPc_dt (w : Word) : (s.setPc w).dt = s.dt := rfl
@[simp] theorem State.setPc_st (w : Word) : (s.setPc w).st = s.st := rfl
@[simp] theorem State.setPc_display (w : Word) : (s.setPc w).display = s.display := rfl
@[simp] theorem State.setPc_latch (w : Word) : (s.setPc w).latch = s.latch := rfl
@[simp] theorem State.setPc_mem (w : Word) : (s.setPc w).mem = s.mem := rfl
@[simp] theorem State.setPc_runState (w : Word) : (s.setPc w).runState = s.runState := rfl
@[simp] theorem State.setPc_fault (w : Word) : (s.setPc w).fault = s.fault := rfl
@[simp] theorem State.setPc_frameOut (w : Word) : (s.setPc w).frameOut = s.frameOut := rfl
@[simp] theorem State.setPc_draws (w : Word) : (s.setPc w).draws = s.draws := rfl
@[simp] theorem State.setPc_pending (w : Word) : (s.setPc w).pending = s.pending := rfl
@[simp] theorem State.setPc_getV (w : Word) (r : Reg) : (s.setPc w).getV r = s.getV r := rfl

@[simp] theorem State.setMem_v (m : Memory) : (s.setMem m).v = s.v := rfl
@[simp] theorem State.setMem_i (m : Memory) : (s.setMem m).i = s.i := rfl
@[simp] theorem State.setMem_pc (m : Memory) : (s.setMem m).pc = s.pc := rfl
@[simp] theorem State.setMem_sp (m : Memory) : (s.setMem m).sp = s.sp := rfl
@[simp] theorem State.setMem_stack (m : Memory) : (s.setMem m).stack = s.stack := rfl
@[simp] theorem State.setMem_dt (m : Memory) : (s.setMem m).dt = s.dt := rfl
@[simp] theorem State.setMem_st (m : Memory) : (s.setMem m).st = s.st := rfl
@[simp] theorem State.setMem_display (m : Memory) : (s.setMem m).display = s.display := rfl
@[simp] theorem State.setMem_latch (m : Memory) : (s.setMem m).latch = s.latch := rfl
@[simp] theorem State.setMem_mem (m : Memory) : (s.setMem m).mem = m := rfl
@[simp] theorem State.setMem_runState (m : Memory) : (s.setMem m).runState = s.runState := rfl
@[simp] theorem State.setMem_fault (m : Memory) : (s.setMem m).fault = s.fault := rfl
@[simp] theorem State.setMem_frameOut (m : Memory) : (s.setMem m).frameOut = s.frameOut := rfl
@[simp] theorem State.setMem_draws (m : Memory) : (s.setMem m).draws = s.draws := rfl
@[simp] theorem State.setMem_pending (m : Memory) : (s.setMem m).pending = s.pending := rfl
@[simp] theorem State.setMem_getV (m : Memory) (r : Reg) : (s.setMem m).getV r = s.getV r := rfl

@[simp] theorem State.setDisplay_v (d : Display) : (s.setDisplay d).v = s.v := rfl
@[simp] theorem State.setDisplay_i (d : Display) : (s.setDisplay d).i = s.i := rfl
@[simp] theorem State.setDisplay_pc (d : Display) : (s.setDisplay d).pc = s.pc := rfl
@[simp] theorem State.setDisplay_sp (d : Display) : (s.setDisplay d).sp = s.sp := rfl
@[simp] theorem State.setDisplay_stack (d : Display) : (s.setDisplay d).stack = s.stack := rfl
@[simp] theorem State.setDisplay_dt (d : Display) : (s.setDisplay d).dt = s.dt := rfl
@[simp] theorem State.setDisplay_st (d : Display) : (s.setDisplay d).st = s.st := rfl
@[simp] theorem State.setDisplay_display (d : Display) : (s.setDisplay d).display = d := rfl
@[simp] theorem State.setDisplay_latch (d : Display) : (s.setDisplay d).latch = s.latch := rfl
@[simp] theorem State.setDisplay_mem (d : Display) : (s.setDisplay d).mem = s.mem := rfl
@[simp] theorem State.setDisplay_runState (d : Display) : (s.setDisplay d).runState = s.runState := rfl
@[simp] theorem State.setDisplay_fault (d : Display) : (s.setDisplay d).fault = s.fault := rfl
@[simp] theorem State.setDisplay_frameOut (d : Display) : (s.setDisplay d).frameOut = s.frameOut := rfl
@[simp] theorem State.setDisplay_draws (d : Display) : (s.setDisplay d).draws = s.draws := rfl
@[simp] theorem State.setDisplay_pending (d : Display) : (s.setDisplay d).pending = s.pending := rfl
@[simp] theorem State.setDisplay_getV (d : Display) (r : Reg) : (s.setDisplay d).getV r = s.getV r := rfl

@[simp] theorem State.setStack_v (e : Vector Word 16) (k : Fin 17) : (s.setStack e k).v = s.v := rfl
@[simp] theorem State.setStack_i (e : Vector Word 16) (k : Fin 17) : (s.setStack e k).i = s.i := rfl
@[simp] theorem State.setStack_pc (e : Vector Word 16) (k : Fin 17) : (s.setStack e k).pc = s.pc := rfl
@[simp] theorem State.setStack_sp (e : Vector Word 16) (k : Fin 17) : (s.setStack e k).sp = k := rfl
@[simp] theorem State.setStack_stack (e : Vector Word 16) (k : Fin 17) : (s.setStack e k).stack = e := rfl
@[simp] theorem State.setStack_dt (e : Vector Word 16) (k : Fin 17) : (s.setStack e k).dt = s.dt := rfl
@[simp] theorem State.setStack_st (e : Vector Word 16) (k : Fin 17) : (s.setStack e k).st = s.st := rfl
@[simp] theorem State.setStack_display (e : Vector Word 16) (k : Fin 17) : (s.setStack e k).display = s.display := rfl
@[simp] theorem State.setStack_latch (e : Vector Word 16) (k : Fin 17) : (s.setStack e k).latch = s.latch := rfl
@[simp] theorem State.setStack_mem (e : Vector Word 16) (k : Fin 17) : (s.setStack e k).mem = s.mem := rfl
@[simp] theorem State.setStack_runState (e : Vector Word 16) (k : Fin 17) : (s.setStack e k).runState = s.runState := rfl
@[simp] theorem State.setStack_fault (e : Vector Word 16) (k : Fin 17) : (s.setStack e k).fault = s.fault := rfl
@[simp] theorem State.setStack_frameOut (e : Vector Word 16) (k : Fin 17) : (s.setStack e k).frameOut = s.frameOut := rfl
@[simp] theorem State.setStack_draws (e : Vector Word 16) (k : Fin 17) : (s.setStack e k).draws = s.draws := rfl
@[simp] theorem State.setStack_pending (e : Vector Word 16) (k : Fin 17) : (s.setStack e k).pending = s.pending := rfl
@[simp] theorem State.setStack_getV (e : Vector Word 16) (k : Fin 17) (r : Reg) : (s.setStack e k).getV r = s.getV r := rfl

@[simp] theorem State.setDelay_v (b : Byte) : (s.setDelay b).v = s.v := rfl
@[simp] theorem State.setDelay_i (b : Byte) : (s.setDelay b).i = s.i := rfl
@[simp] theorem State.setDelay_pc (b : Byte) : (s.setDelay b).pc = s.pc := rfl
@[simp] theorem State.setDelay_sp (b : Byte) : (s.setDelay b).sp = s.sp := rfl
@[simp] theorem State.setDelay_stack (b : Byte) : (s.setDelay b).stack = s.stack := rfl
@[simp] theorem State.setDelay_dt (b : Byte) : (s.setDelay b).dt = b := rfl
@[simp] theorem State.setDelay_st (b : Byte) : (s.setDelay b).st = s.st := rfl
@[simp] theorem State.setDelay_display (b : Byte) : (s.setDelay b).display = s.display := rfl
@[simp] theorem State.setDelay_latch (b : Byte) : (s.setDelay b).latch = s.latch := rfl
@[simp] theorem State.setDelay_mem (b : Byte) : (s.setDelay b).mem = s.mem := rfl
@[simp] theorem State.setDelay_runState (b : Byte) : (s.setDelay b).runState = s.runState := rfl
@[simp] theorem State.setDelay_fault (b : Byte) : (s.setDelay b).fault = s.fault := rfl
@[simp] theorem State.setDelay_frameOut (b : Byte) : (s.setDelay b).frameOut = s.frameOut := rfl
@[simp] theorem State.setDelay_draws (b : Byte) : (s.setDelay b).draws = s.draws := rfl
@[simp] theorem State.setDelay_pending (b : Byte) : (s.setDelay b).pending = s.pending := rfl
@[simp] theorem State.setDelay_getV (b : Byte) (r : Reg) : (s.setDelay b).getV r = s.getV r := rfl

@[simp] theorem State.setSound_v (b : Byte) : (s.setSound b).v = s.v := rfl
@[simp] theorem State.setSound_i (b : Byte) : (s.setSound b).i = s.i := rfl
@[simp] theorem State.setSound_pc (b : Byte) : (s.setSound b).pc = s.pc := rfl
@[simp] theorem State.setSound_sp (b : Byte) : (s.setSound b).sp = s.sp := rfl
@[simp] theorem State.setSound_stack (b : Byte) : (s.setSound b).stack = s.stack := rfl
@[simp] theorem State.setSound_dt (b : Byte) : (s.setSound b).dt = s.dt := rfl
@[simp] theorem State.setSound_st (b : Byte) : (s.setSound b).st = b := rfl
@[simp] theorem State.setSound_display (b : Byte) : (s.setSound b).display = s.display := rfl
@[simp] theorem State.setSound_latch (b : Byte) : (s.setSound b).latch = s.latch := rfl
@[simp] theorem State.setSound_mem (b : Byte) : (s.setSound b).mem = s.mem := rfl
@[simp] theorem State.setSound_runState (b : Byte) : (s.setSound b).runState = s.runState := rfl
@[simp] theorem State.setSound_fault (b : Byte) : (s.setSound b).fault = s.fault := rfl
@[simp] theorem State.setSound_frameOut (b : Byte) : (s.setSound b).frameOut = s.frameOut := rfl
@[simp] theorem State.setSound_draws (b : Byte) : (s.setSound b).draws = s.draws := rfl
@[simp] theorem State.setSound_pending (b : Byte) : (s.setSound b).pending = s.pending := rfl
@[simp] theorem State.setSound_getV (b : Byte) (r : Reg) : (s.setSound b).getV r = s.getV r := rfl

@[simp] theorem State.raise_v (q : FaultRecord) : (s.raise q).v = s.v := rfl
@[simp] theorem State.raise_i (q : FaultRecord) : (s.raise q).i = s.i := rfl
@[simp] theorem State.raise_pc (q : FaultRecord) : (s.raise q).pc = s.pc := rfl
@[simp] theorem State.raise_sp (q : FaultRecord) : (s.raise q).sp = s.sp := rfl
@[simp] theorem State.raise_stack (q : FaultRecord) : (s.raise q).stack = s.stack := rfl
@[simp] theorem State.raise_dt (q : FaultRecord) : (s.raise q).dt = s.dt := rfl
@[simp] theorem State.raise_st (q : FaultRecord) : (s.raise q).st = s.st := rfl
@[simp] theorem State.raise_display (q : FaultRecord) : (s.raise q).display = s.display := rfl
@[simp] theorem State.raise_latch (q : FaultRecord) : (s.raise q).latch = s.latch := rfl
@[simp] theorem State.raise_mem (q : FaultRecord) : (s.raise q).mem = s.mem := rfl
@[simp] theorem State.raise_runState (q : FaultRecord) : (s.raise q).runState = .faulted := rfl
@[simp] theorem State.raise_fault (q : FaultRecord) : (s.raise q).fault = some q := rfl
@[simp] theorem State.raise_frameOut (q : FaultRecord) : (s.raise q).frameOut = s.frameOut := rfl
@[simp] theorem State.raise_draws (q : FaultRecord) : (s.raise q).draws = s.draws := rfl
@[simp] theorem State.raise_pending (q : FaultRecord) : (s.raise q).pending = s.pending := rfl
@[simp] theorem State.raise_getV (q : FaultRecord) (r : Reg) : (s.raise q).getV r = s.getV r := rfl

@[simp] theorem State.tick_v : (s.tick).v = s.v := rfl
@[simp] theorem State.tick_i : (s.tick).i = s.i := rfl
@[simp] theorem State.tick_pc : (s.tick).pc = s.pc := rfl
@[simp] theorem State.tick_sp : (s.tick).sp = s.sp := rfl
@[simp] theorem State.tick_stack : (s.tick).stack = s.stack := rfl
@[simp] theorem State.tick_dt : (s.tick).dt = decrementTimer s.dt := rfl
@[simp] theorem State.tick_st : (s.tick).st = decrementTimer s.st := rfl
@[simp] theorem State.tick_display : (s.tick).display = s.display := rfl
@[simp] theorem State.tick_latch : (s.tick).latch = s.latch := rfl
@[simp] theorem State.tick_mem : (s.tick).mem = s.mem := rfl
@[simp] theorem State.tick_runState : (s.tick).runState = s.runState := rfl
@[simp] theorem State.tick_fault : (s.tick).fault = s.fault := rfl
@[simp] theorem State.tick_frameOut : (s.tick).frameOut = s.display.snapshot := rfl
@[simp] theorem State.tick_draws : (s.tick).draws = s.draws := rfl
@[simp] theorem State.tick_pending : (s.tick).pending = s.pending := rfl
@[simp] theorem State.tick_getV (r : Reg) : (s.tick).getV r = s.getV r := rfl

@[simp] theorem State.sample_v (k : Option Key) : (s.sample k).v = s.v := rfl
@[simp] theorem State.sample_i (k : Option Key) : (s.sample k).i = s.i := rfl
@[simp] theorem State.sample_pc (k : Option Key) : (s.sample k).pc = s.pc := rfl
@[simp] theorem State.sample_sp (k : Option Key) : (s.sample k).sp = s.sp := rfl
@[simp] theorem State.sample_stack (k : Option Key) : (s.sample k).stack = s.stack := rfl
@[simp] theorem State.sample_dt (k : Option Key) : (s.sample k).dt = s.dt := rfl
@[simp] theorem State.sample_st (k : Option Key) : (s.sample k).st = s.st := rfl
@[simp] theorem State.sample_display (k : Option Key) : (s.sample k).display = s.display := rfl
@[simp] theorem State.sample_latch (k : Option Key) : (s.sample k).latch = k := rfl
@[simp] theorem State.sample_mem (k : Option Key) : (s.sample k).mem = s.mem := rfl
@[simp] theorem State.sample_runState (k : Option Key) : (s.sample k).runState = s.runState := rfl
@[simp] theorem State.sample_fault (k : Option Key) : (s.sample k).fault = s.fault := rfl
@[simp] theorem State.sample_frameOut (k : Option Key) : (s.sample k).frameOut = s.frameOut := rfl
@[simp] theorem State.sample_draws (k : Option Key) : (s.sample k).draws = s.draws := rfl
@[simp] theorem State.sample_pending (k : Option Key) : (s.sample k).pending = s.pending := rfl
@[simp] theorem State.sample_getV (k : Option Key) (r : Reg) : (s.sample k).getV r = s.getV r := rfl

@[simp] theorem State.stop_v : (s.stop).v = s.v := rfl
@[simp] theorem State.stop_i : (s.stop).i = s.i := rfl
@[simp] theorem State.stop_pc : (s.stop).pc = s.pc := rfl
@[simp] theorem State.stop_sp : (s.stop).sp = s.sp := rfl
@[simp] theorem State.stop_stack : (s.stop).stack = s.stack := rfl
@[simp] theorem State.stop_dt : (s.stop).dt = s.dt := rfl
@[simp] theorem State.stop_st : (s.stop).st = s.st := rfl
@[simp] theorem State.stop_display : (s.stop).display = s.display := rfl
@[simp] theorem State.stop_latch : (s.stop).latch = s.latch := rfl
@[simp] theorem State.stop_mem : (s.stop).mem = s.mem := rfl
@[simp] theorem State.stop_runState : (s.stop).runState = .stopped := rfl
@[simp] theorem State.stop_fault : (s.stop).fault = s.fault := rfl
@[simp] theorem State.stop_frameOut : (s.stop).frameOut = s.frameOut := rfl
@[simp] theorem State.stop_draws : (s.stop).draws = s.draws := rfl
@[simp] theorem State.stop_pending : (s.stop).pending = s.pending := rfl
@[simp] theorem State.stop_getV (r : Reg) : (s.stop).getV r = s.getV r := rfl

@[simp] theorem State.takeEvent_v : (s.takeEvent).v = s.v := rfl
@[simp] theorem State.takeEvent_i : (s.takeEvent).i = s.i := rfl
@[simp] theorem State.takeEvent_pc : (s.takeEvent).pc = s.pc := rfl
@[simp] theorem State.takeEvent_sp : (s.takeEvent).sp = s.sp := rfl
@[simp] theorem State.takeEvent_stack : (s.takeEvent).stack = s.stack := rfl
@[simp] theorem State.takeEvent_dt : (s.takeEvent).dt = s.dt := rfl
@[simp] theorem State.takeEvent_st : (s.takeEvent).st = s.st := rfl
@[simp] theorem State.takeEvent_display : (s.takeEvent).display = s.display := rfl
@[simp] theorem State.takeEvent_latch : (s.takeEvent).latch = s.latch := rfl
@[simp] theorem State.takeEvent_mem : (s.takeEvent).mem = s.mem := rfl
@[simp] theorem State.takeEvent_runState : (s.takeEvent).runState = s.runState := rfl
@[simp] theorem State.takeEvent_fault : (s.takeEvent).fault = s.fault := rfl
@[simp] theorem State.takeEvent_frameOut : (s.takeEvent).frameOut = s.frameOut := rfl
@[simp] theorem State.takeEvent_draws : (s.takeEvent).draws = s.draws := rfl
@[simp] theorem State.takeEvent_pending : (s.takeEvent).pending = s.pending.tail := rfl
@[simp] theorem State.takeEvent_getV (r : Reg) : (s.takeEvent).getV r = s.getV r := rfl

/-- Reading a register after writing one. -/
theorem State.getV_setV (x r : Reg) (b : Byte) : (s.setV x b).getV r = if r = x then b else s.getV r := by
  simp only [State.getV, State.setV, Vector.get_eq_getElem, Vector.getElem_set]
  by_cases h : x.val = r.val
  · simp [h, Fin.ext_iff]
  · simp [h, Fin.ext_iff, Ne.symm h]

@[simp] theorem State.getV_setV_self (x : Reg) (b : Byte) : (s.setV x b).getV x = b := by
  simp [State.getV_setV]

theorem State.getV_setV_ne (x r : Reg) (b : Byte) (h : r ≠ x) : (s.setV x b).getV r = s.getV r := by
  simp [State.getV_setV, h]

end Sys2Proof.Machine
end

