-- ==== Sys2Proof/Laws/Ops.lean ====
section
/-! SUPPORT. For each shared operation, once, everything it can do. -/

namespace Sys2Proof.Machine

/-! ### Flags -/

theorem flagByte_toNat (c : Bool) : (flagByte c).toNat = if c then 1 else 0 := by
  cases c <;> rfl

theorem wrappedDiff_toNat (a b : Byte) : (wrappedDiff a b).toNat = (a.toNat + 256 - b.toNat) % 256 := by
  simp [wrappedDiff]

theorem lostLow_toNat (b : Byte) : (flagByte (lostLow b)).toNat = b.toNat % 2 := by
  rw [flagByte_toNat, lostLow, BitVec.getLsbD, Nat.testBit_zero]
  split <;> simp_all

theorem lostHigh_toNat (b : Byte) : (flagByte (lostHigh b)).toNat = b.toNat / 128 := by
  have := b.isLt
  rw [flagByte_toNat, lostHigh, BitVec.getLsbD, Nat.testBit_eq_decide_div_mod_eq]
  split <;> simp_all <;> omega

/-- Vx is written first and VF last, so VF always ends as the flag (R141). -/
theorem State.setResultAndFlag_getV (s : State) (x r : Reg) (b : Byte) (c : Bool) :
    (s.setResultAndFlag x b c).getV r = if r = vF then flagByte c else if r = x then b else s.getV r := by
  simp only [State.setResultAndFlag, State.setFlag, State.getV_setV]

/-! ### The call stack -/

/-- Everything a push can do. -/
theorem State.push_cases (s : State) (w : Word) :
    (s.push w = none ∧ s.sp.val = 16) ∨
    ∃ h : s.sp.val < 16,
      s.push w = some (s.setStack (s.stack.set s.sp.val w h) ⟨s.sp.val + 1, by omega⟩) := by
  have := s.sp.isLt
  unfold State.push
  by_cases h : s.sp.val < 16
  · exact .inr ⟨h, by simp [h]⟩
  · exact .inl ⟨by simp [h], by omega⟩

/-- Everything a pop can do. -/
theorem State.pop_cases (s : State) :
    (s.pop = none ∧ s.sp.val = 0) ∨
    ∃ h : 0 < s.sp.val,
      s.pop = some (s.stack[s.sp.val - 1]'(by omega), s.setStack s.stack ⟨s.sp.val - 1, by omega⟩) := by
  unfold State.pop
  by_cases h : 0 < s.sp.val
  · exact .inr ⟨h, by simp [h]⟩
  · exact .inl ⟨by simp [h], by omega⟩

/-! ### Registers as a block -/

@[simp] theorem State.regsUpTo_length (s : State) (x : Reg) : (s.regsUpTo x).length = x.val + 1 := by
  have := x.isLt
  simp only [State.regsUpTo, List.length_take, Vector.length_toList]; omega

theorem State.regsUpTo_getElem (s : State) (x : Reg) (k : Nat) (h : k < (s.regsUpTo x).length) :
    (s.regsUpTo x)[k] = s.getV ⟨k, by have := x.isLt; simp at h; omega⟩ := by
  simp [State.regsUpTo, State.getV, Vector.get_eq_getElem]

/-- Loading registers changes registers only. -/
theorem State.loadRegsFrom_eq (k : Nat) (bs : List Byte) (s : State) :
    State.loadRegsFrom k bs s = { s with v := (State.loadRegsFrom k bs s).v } := by
  induction bs generalizing k s with
  | nil => rfl
  | cons b bs ih =>
    rw [State.loadRegsFrom, ih]
    by_cases h : k < 16 <;> simp [h, State.setV]

/-- What each register holds after a block load. -/
theorem State.loadRegsFrom_getV (k : Nat) (bs : List Byte) (s : State) (r : Reg) :
    (State.loadRegsFrom k bs s).getV r =
      if h : k ≤ r.val ∧ r.val < k + bs.length then bs[r.val - k]'(by omega) else s.getV r := by
  induction bs generalizing k s with
  | nil =>
    have h : ¬ (k ≤ r.val ∧ r.val < k + ([] : List Byte).length) := by simp only [List.length_nil]; omega
    rw [dif_neg h]; rfl
  | cons b bs ih =>
    have hr := r.isLt
    have hlen : (b :: bs).length = bs.length + 1 := rfl
    rw [State.loadRegsFrom, ih]
    by_cases h1 : k + 1 ≤ r.val ∧ r.val < k + 1 + bs.length
    · have h2 : k ≤ r.val ∧ r.val < k + (b :: bs).length := by omega
      have e : r.val - k = (r.val - (k + 1)) + 1 := by omega
      rw [dif_pos h1, dif_pos h2]
      simp [e]
    · rw [dif_neg h1]
      by_cases h0 : r.val = k
      · have h2 : k ≤ r.val ∧ r.val < k + (b :: bs).length := by omega
        have hk : k < 16 := by omega
        have hx : r = ⟨k, hk⟩ := Fin.ext h0
        rw [dif_pos hk, dif_pos h2]
        subst hx
        simp [State.getV_setV_self]
      · have h2 : ¬ (k ≤ r.val ∧ r.val < k + (b :: bs).length) := by omega
        rw [dif_neg h2]
        by_cases hk : k < 16
        · rw [dif_pos hk, State.getV_setV_ne]
          intro hx; exact h0 (by rw [hx])
        · rw [dif_neg hk]

/-! ### The skip and the key test -/

@[simp] theorem State.skipIf_true (s : State) : s.skipIf true = s.setPc (s.pc + 2) := rfl
@[simp] theorem State.skipIf_false (s : State) : s.skipIf false = s := rfl

/-- A key counts as pressed exactly when it is latched and its code is the whole byte (R213, R218). -/
theorem State.isPressed_iff (s : State) (b : Byte) :
    s.isPressed b = true ↔ ∃ k, s.latch = some k ∧ k.toNat = b.toNat := by
  unfold State.isPressed State.activeKey
  cases h : s.latch with
  | none => simp
  | some k =>
    simp only [beq_iff_eq, Option.some.injEq, exists_eq_left']
    constructor
    · rintro rfl; exact (zext8_toNat k).symm
    · intro hk; apply BitVec.eq_of_toNat_eq; rw [zext8_toNat]; exact hk

/-! ### The timers -/

theorem decrementTimer_toNat (t : Byte) : (decrementTimer t).toNat = t.toNat - 1 := by
  unfold decrementTimer
  split
  · have := t.isLt
    rw [BitVec.toNat_sub_of_le]
    · rfl
    · simp [BitVec.le_def]; omega
  · omega

/-! ### The pixel engine -/

theorem Display.pixel_setPixel (d : Display) (y py : Fin 32) (x px : Fin 64) (on : Bool) :
    (d.setPixel y x on).pixel py px = if py = y ∧ px = x then on else d.pixel py px := by
  by_cases hy : py = y
  · subst hy
    by_cases hx : px = x
    · subst hx; simp [Display.pixel, Display.setPixel, Vector.get_eq_getElem]
    · have : x.val ≠ px.val := fun h => hx (Fin.ext h.symm)
      simp [Display.pixel, Display.setPixel, Vector.get_eq_getElem, hx, this]
  · have : y.val ≠ py.val := fun h => hy (Fin.ext h.symm)
    simp [Display.pixel, Display.setPixel, Vector.get_eq_getElem, hy, this]

theorem Display.shown_setPixel (d : Display) (y py : Fin 32) (x px : Fin 64) (on : Bool) :
    (d.setPixel y x on).shown py px = if py = y ∧ px = x then colour on else d.shown py px := by
  by_cases hy : py = y
  · subst hy
    by_cases hx : px = x
    · subst hx; simp [Display.shown, Display.setPixel, Vector.get_eq_getElem]
    · have : x.val ≠ px.val := fun h => hx (Fin.ext h.symm)
      simp [Display.shown, Display.setPixel, Vector.get_eq_getElem, hx, this]
  · have : y.val ≠ py.val := fun h => hy (Fin.ext h.symm)
    simp [Display.shown, Display.setPixel, Vector.get_eq_getElem, hy, this]

/-- Planes that agree pixel by pixel are equal. -/
theorem Display.plane_ext {d e : Display} (h : ∀ y x, d.pixel y x = e.pixel y x) : d.plane = e.plane := by
  apply Vector.ext
  intro y hy
  apply Vector.ext
  intro x hx
  simpa [Display.pixel, Vector.get_eq_getElem] using h ⟨y, hy⟩ ⟨x, hx⟩

@[simp] theorem Display.blank_pixel (y : Fin 32) (x : Fin 64) : Display.blank.pixel y x = false := by
  simp [Display.pixel, Display.blank, Vector.get_eq_getElem]

@[simp] theorem Display.blank_shown (y : Fin 32) (x : Fin 64) : Display.blank.shown y x = .background := by
  simp [Display.shown, Display.blank, Vector.get_eq_getElem]

/-- Two columns of one `draw_byte` are the same only for the same bit (R191). -/
theorem columnOf_inj {x j k : Nat} (hj : j < 8) (hk : k < 8) (h : columnOf (x + j) = columnOf (x + k)) :
    j = k := by
  have := congrArg Fin.val h
  simp only [columnOf] at this
  omega

/-- One bit of a draw, pixel by pixel (R191, R195). -/
theorem Display.drawBit_spec (d : Display) (x y : Nat) (byte : Byte) (i : Nat) (py : Fin 32) (px : Fin 64) :
    (d.drawBit x y byte i).1.pixel py px =
      (if py = rowOf y ∧ px = columnOf (x + i) then xor (d.pixel py px) (byte.getLsbD (7 - i))
       else d.pixel py px) ∧
    (d.drawBit x y byte i).1.shown py px =
      (if py = rowOf y ∧ px = columnOf (x + i) then colour (xor (d.pixel py px) (byte.getLsbD (7 - i)))
       else d.shown py px) := by
  constructor
  · simp only [Display.drawBit, Display.pixel_setPixel]
    split
    · next h => rw [h.1, h.2]
    · rfl
  · simp only [Display.drawBit, Display.shown_setPixel]
    split
    · next h => rw [h.1, h.2]
    · rfl

/-- The presentation plane stays the colours of the logical plane through any draw (R195). -/
theorem Display.drawBits_presentation (bits : List Nat) (d : Display) (x y : Nat) (byte : Byte)
    (h : ∀ py px, d.shown py px = colour (d.pixel py px)) :
    ∀ py px, (d.drawBits x y byte bits).1.shown py px = colour ((d.drawBits x y byte bits).1.pixel py px) := by
  induction bits generalizing d with
  | nil => exact h
  | cons i bits ih =>
    refine ih (d.drawBit x y byte i).1 (fun py px => ?_)
    rw [(Display.drawBit_spec d x y byte i py px).1, (Display.drawBit_spec d x y byte i py px).2]
    split
    · rfl
    · exact h py px

theorem Display.drawRows_presentation (rows : List Byte) (d : Display) (x y : Nat)
    (h : ∀ py px, d.shown py px = colour (d.pixel py px)) :
    ∀ py px, (d.drawRows x y rows).1.shown py px = colour ((d.drawRows x y rows).1.pixel py px) := by
  induction rows generalizing d y with
  | nil => exact h
  | cons b rows ih => exact ih _ (y + 1) (Display.drawBits_presentation _ d x y b h)

/-- A loop over distinct bit positions toggles exactly the pixels of the byte's 1-bits, and erases exactly where one of
them was set (R191, R192). -/
theorem Display.drawBits_spec (bits : List Nat) (hb : bits.Nodup) (hlt : ∀ i ∈ bits, i < 8) (d : Display)
    (x y : Nat) (byte : Byte) :
    (∀ py px, (d.drawBits x y byte bits).1.pixel py px =
      xor (d.pixel py px)
        (decide (∃ i ∈ bits, py = rowOf y ∧ px = columnOf (x + i) ∧ byte.getLsbD (7 - i) = true))) ∧
    ((d.drawBits x y byte bits).2 = true ↔
      ∃ i ∈ bits, byte.getLsbD (7 - i) = true ∧ d.pixel (rowOf y) (columnOf (x + i)) = true) := by
  induction bits generalizing d with
  | nil => simp [Display.drawBits]
  | cons i bits ih =>
    have hnd := List.nodup_cons.1 hb
    have hi : i < 8 := hlt i (by simp)
    have hlt' : ∀ j ∈ bits, j < 8 := fun j hj => hlt j (List.mem_cons_of_mem _ hj)
    obtain ⟨ih1, ih2⟩ := ih hnd.2 hlt' (d.drawBit x y byte i).1
    have hother : ∀ j ∈ bits, columnOf (x + j) ≠ columnOf (x + i) := fun j hj h =>
      hnd.1 (columnOf_inj (hlt' j hj) hi h ▸ hj)
    constructor
    · intro py px
      simp only [Display.drawBits]
      rw [ih1, (Display.drawBit_spec d x y byte i py px).1]
      by_cases h : py = rowOf y ∧ px = columnOf (x + i)
      · obtain ⟨rfl, rfl⟩ := h
        have hno : ¬ ∃ j ∈ bits, rowOf y = rowOf y ∧ columnOf (x + i) = columnOf (x + j) ∧
            byte.getLsbD (7 - j) = true := by
          rintro ⟨j, hj, -, hc, -⟩; exact hother j hj hc.symm
        have hyes : (∃ j ∈ i :: bits, rowOf y = rowOf y ∧ columnOf (x + i) = columnOf (x + j) ∧
            byte.getLsbD (7 - j) = true) ↔ byte.getLsbD (7 - i) = true := by
          constructor
          · rintro ⟨j, hj, -, hc, hjb⟩
            rcases List.mem_cons.1 hj with rfl | hj
            · exact hjb
            · exact absurd hc.symm (hother j hj)
          · exact fun hbit => ⟨i, by simp, rfl, rfl, hbit⟩
        rw [if_pos ⟨rfl, rfl⟩, decide_eq_false hno, Bool.xor_false]
        congr 1
        rw [Bool.eq_iff_iff, decide_eq_true_iff]
        exact hyes.symm
      · rw [if_neg h]
        congr 1
        rw [decide_eq_decide]
        constructor
        · rintro ⟨j, hj, h'⟩; exact ⟨j, List.mem_cons_of_mem _ hj, h'⟩
        · rintro ⟨j, hj, h1, h2, h3⟩
          rcases List.mem_cons.1 hj with rfl | hj
          · exact absurd ⟨h1, h2⟩ h
          · exact ⟨j, hj, h1, h2, h3⟩
    · simp only [Display.drawBits, Bool.or_eq_true]
      rw [ih2]
      have hfirst : (d.drawBit x y byte i).2 = true ↔
          byte.getLsbD (7 - i) = true ∧ d.pixel (rowOf y) (columnOf (x + i)) = true := by
        simp [Display.drawBit]
      rw [hfirst]
      constructor
      · rintro (h | ⟨j, hj, h1, h2⟩)
        · exact ⟨i, by simp, h⟩
        · rw [(Display.drawBit_spec d x y byte i _ _).1, if_neg (fun h => hother j hj h.2)] at h2
          exact ⟨j, List.mem_cons_of_mem _ hj, h1, h2⟩
      · rintro ⟨j, hj, h1, h2⟩
        rcases List.mem_cons.1 hj with rfl | hj
        · exact .inl ⟨h1, h2⟩
        · refine .inr ⟨j, hj, h1, ?_⟩
          rw [(Display.drawBit_spec d x y byte i _ _).1, if_neg (fun h => hother j hj h.2)]
          exact h2

/-- A loop over distinct bit positions recolours exactly its own columns of the row (R195). -/
theorem Display.drawBits_shown (bits : List Nat) (hb : bits.Nodup) (hlt : ∀ i ∈ bits, i < 8) (d : Display)
    (x y : Nat) (byte : Byte) (py : Fin 32) (px : Fin 64) :
    (d.drawBits x y byte bits).1.shown py px =
      if ∃ k ∈ bits, py = rowOf y ∧ px = columnOf (x + k) then
        colour ((d.drawBits x y byte bits).1.pixel py px)
      else d.shown py px := by
  induction bits generalizing d with
  | nil => simp [Display.drawBits]
  | cons i bits ih =>
    have hnd := List.nodup_cons.1 hb
    have hlt' : ∀ j ∈ bits, j < 8 := fun j hj => hlt j (List.mem_cons_of_mem _ hj)
    show ((d.drawBit x y byte i).1.drawBits x y byte bits).1.shown py px = _
    rw [ih hnd.2 hlt', (Display.drawBit_spec d x y byte i py px).2]
    by_cases h : ∃ k ∈ bits, py = rowOf y ∧ px = columnOf (x + k)
    · rw [if_pos h, if_pos (by obtain ⟨k, hk, h⟩ := h; exact ⟨k, List.mem_cons_of_mem _ hk, h⟩)]; rfl
    · rw [if_neg h]
      by_cases h0 : py = rowOf y ∧ px = columnOf (x + i)
      · rw [if_pos h0, if_pos ⟨i, by simp, h0⟩]
        show _ = colour (((d.drawBit x y byte i).1.drawBits x y byte bits).1.pixel py px)
        rw [(Display.drawBits_spec bits hnd.2 hlt' _ x y byte).1, (Display.drawBit_spec d x y byte i py px).1,
          if_pos h0, decide_eq_false, Bool.xor_false]
        rintro ⟨k, hk, h1, h2, -⟩
        exact h ⟨k, hk, h1, h2⟩
      · rw [if_neg h0, if_neg]
        rintro ⟨k, hk, h1⟩
        rcases List.mem_cons.1 hk with rfl | hk
        · exact h0 h1
        · exact h ⟨k, hk, h1⟩

end Sys2Proof.Machine
end

