-- ==== Sys2Proof/Laws/Draw.lean ====
section
/-! SUPPORT. What drawing a byte and drawing the rows of a sprite do, pixel by pixel. -/

namespace Sys2Proof.Machine

/-- The byte drawn at (x, y) has a 1 on this pixel (R191). -/
abbrev ByteCovers (x y : Nat) (b : Byte) (py : Fin 32) (px : Fin 64) : Prop :=
  ∃ k ∈ [0, 1, 2, 3, 4, 5, 6, 7], py = rowOf y ∧ px = columnOf (x + k) ∧ b.getLsbD (7 - k) = true

/-- The rows drawn from (x, y) have a 1 on this pixel (R191, R199). -/
def RowsCover (x y : Nat) (rows : List Byte) (py : Fin 32) (px : Fin 64) : Prop :=
  ∃ (r k : Nat) (h : r < rows.length),
    k < 8 ∧ py = rowOf (y + r) ∧ px = columnOf (x + k) ∧ rows[r].getLsbD (7 - k) = true

theorem mem_bitPositions (k : Nat) : k ∈ [0, 1, 2, 3, 4, 5, 6, 7] ↔ k < 8 := by
  simp only [List.mem_cons, List.not_mem_nil, or_false]; omega

/-- A drawn byte flips exactly the pixels it covers. -/
theorem Display.drawByte_pixel (d : Display) (x y : Nat) (b : Byte) (py : Fin 32) (px : Fin 64) :
    (ByteCovers x y b py px → (d.drawByte x y b).1.pixel py px = !d.pixel py px) ∧
    (¬ ByteCovers x y b py px → (d.drawByte x y b).1.pixel py px = d.pixel py px) := by
  have h := (Display.drawBits_spec [0, 1, 2, 3, 4, 5, 6, 7] (by decide) (by decide) d x y b).1 py px
  constructor <;> intro hc <;> rw [Display.drawByte, h]
  · rw [decide_eq_true hc, Bool.xor_true]
  · rw [decide_eq_false hc, Bool.xor_false]

/-- A drawn byte erases exactly when it covers a pixel that is set. -/
theorem Display.drawByte_erased (d : Display) (x y : Nat) (b : Byte) :
    (d.drawByte x y b).2 = true ↔ ∃ py px, ByteCovers x y b py px ∧ d.pixel py px = true := by
  rw [Display.drawByte, (Display.drawBits_spec [0, 1, 2, 3, 4, 5, 6, 7] (by decide) (by decide) d x y b).2]
  constructor
  · rintro ⟨k, hk, hb, hp⟩; exact ⟨_, _, ⟨k, hk, rfl, rfl, hb⟩, hp⟩
  · rintro ⟨_, _, ⟨k, hk, rfl, rfl, hb⟩, hp⟩; exact ⟨k, hk, hb, hp⟩

/-- The first row and the others. -/
theorem rowsCover_cons (x y : Nat) (b : Byte) (rows : List Byte) (py : Fin 32) (px : Fin 64) :
    RowsCover x y (b :: rows) py px ↔ ByteCovers x y b py px ∨ RowsCover x (y + 1) rows py px := by
  constructor
  · rintro ⟨r, k, h, hk, h1, h2, h3⟩
    cases r with
    | zero => exact .inl ⟨k, (mem_bitPositions k).2 hk, h1, h2, h3⟩
    | succ r =>
      exact .inr ⟨r, k, by simpa using h, hk, by rw [h1, Nat.add_right_comm, Nat.add_assoc], h2, h3⟩
  · rintro (⟨k, hk, h1, h2, h3⟩ | ⟨r, k, h, hk, h1, h2, h3⟩)
    · exact ⟨0, k, by simp, (mem_bitPositions k).1 hk, h1, h2, h3⟩
    · exact ⟨r + 1, k, by simpa using h, hk, by rw [h1, Nat.add_right_comm, Nat.add_assoc], h2, h3⟩

/-- Up to 32 rows never cover one pixel twice. -/
theorem not_rowsCover_of_byteCovers {x y : Nat} {b : Byte} {rows : List Byte} {py : Fin 32} {px : Fin 64}
    (hlen : rows.length < 32) (h : ByteCovers x y b py px) : ¬ RowsCover x (y + 1) rows py px := by
  obtain ⟨_, _, rfl, -⟩ := h
  rintro ⟨r, _, hr, -, h2, -⟩
  have := congrArg Fin.val h2
  simp only [rowOf] at this
  omega

/-- Drawn rows flip exactly the pixels they cover, and erase exactly when they cover a pixel that is set (R191, R192,
R199). -/
theorem Display.drawRows_spec (rows : List Byte) (hlen : rows.length ≤ 32) (d : Display) (x y : Nat) :
    (∀ py px, (RowsCover x y rows py px → (d.drawRows x y rows).1.pixel py px = !d.pixel py px) ∧
      (¬ RowsCover x y rows py px → (d.drawRows x y rows).1.pixel py px = d.pixel py px)) ∧
    ((d.drawRows x y rows).2 = true ↔ ∃ py px, RowsCover x y rows py px ∧ d.pixel py px = true) := by
  induction rows generalizing d y with
  | nil =>
    have hno : ∀ py px, ¬ RowsCover x y [] py px := by rintro py px ⟨r, k, h, -⟩; simp at h
    exact ⟨fun py px => ⟨fun h => absurd h (hno py px), fun _ => rfl⟩,
      fun h => by simp [Display.drawRows] at h, fun ⟨py, px, h, _⟩ => absurd h (hno py px)⟩
  | cons b rows ih =>
    have hlt : rows.length < 32 := by simpa using hlen
    obtain ⟨ih1, ih2⟩ := ih (by omega) (d.drawByte x y b).1 (y + 1)
    constructor
    · intro py px
      show (_ → ((d.drawByte x y b).1.drawRows x (y + 1) rows).1.pixel py px = _) ∧
        (_ → ((d.drawByte x y b).1.drawRows x (y + 1) rows).1.pixel py px = _)
      rw [rowsCover_cons]
      by_cases h : ByteCovers x y b py px
      · have h' := not_rowsCover_of_byteCovers hlt h
        rw [(ih1 py px).2 h', (d.drawByte_pixel x y b py px).1 h]
        exact ⟨fun _ => rfl, fun hn => absurd (.inl h) hn⟩
      · by_cases h' : RowsCover x (y + 1) rows py px
        · rw [(ih1 py px).1 h', (d.drawByte_pixel x y b py px).2 h]
          exact ⟨fun _ => rfl, fun hn => absurd (.inr h') hn⟩
        · rw [(ih1 py px).2 h', (d.drawByte_pixel x y b py px).2 h]
          exact ⟨fun hc => (hc.elim h h').elim, fun _ => rfl⟩
    · show ((d.drawByte x y b).2 || ((d.drawByte x y b).1.drawRows x (y + 1) rows).2) = true ↔ _
      rw [Bool.or_eq_true, ih2, Display.drawByte_erased]
      constructor
      · rintro (⟨py, px, h1, h2⟩ | ⟨py, px, h1, h2⟩)
        · exact ⟨py, px, (rowsCover_cons ..).2 (.inl h1), h2⟩
        · refine ⟨py, px, (rowsCover_cons ..).2 (.inr h1), ?_⟩
          rwa [(d.drawByte_pixel x y b py px).2 fun h => not_rowsCover_of_byteCovers hlt h h1] at h2
      · rintro ⟨py, px, h1, h2⟩
        rcases (rowsCover_cons ..).1 h1 with h | h
        · exact .inl ⟨py, px, h, h2⟩
        · refine .inr ⟨py, px, h, ?_⟩
          rwa [(d.drawByte_pixel x y b py px).2 fun h' => not_rowsCover_of_byteCovers hlt h' h]

end Sys2Proof.Machine
end

