-- ==== Sys2Proof/Laws/PerInstr.lean ====
section
/-! SUPPORT. One statement about every instruction as syntax: its word lies in its row of spec/opcode_table.json, the
row's fixed bits (mask and match) and the bits of every field. -/

namespace Sys2Proof.Laws.EncodesInRow

/-- The mask and the match of an instruction's row of spec/opcode_table.json (R85). -/
def row : Instr → Word × Word
  | .sys _ => (0xF000, 0x0000)
  | .cls => (0xFFFF, 0x00E0)
  | .ret => (0xFFFF, 0x00EE)
  | .jp _ => (0xF000, 0x1000)
  | .call _ => (0xF000, 0x2000)
  | .seImm _ _ => (0xF000, 0x3000)
  | .sneImm _ _ => (0xF000, 0x4000)
  | .seReg _ _ => (0xF000, 0x5000)
  | .ldImm _ _ => (0xF000, 0x6000)
  | .addImm _ _ => (0xF000, 0x7000)
  | .ldReg _ _ => (0xF00F, 0x8000)
  | .orReg _ _ => (0xF00F, 0x8001)
  | .andReg _ _ => (0xF00F, 0x8002)
  | .xorReg _ _ => (0xF00F, 0x8003)
  | .addReg _ _ => (0xF00F, 0x8004)
  | .sub _ _ => (0xF00F, 0x8005)
  | .shr _ _ => (0xF00F, 0x8006)
  | .subn _ _ => (0xF00F, 0x8007)
  | .shl _ _ => (0xF00F, 0x800E)
  | .sneReg _ _ => (0xF000, 0x9000)
  | .ldI _ => (0xF000, 0xA000)
  | .jpV0 _ => (0xF000, 0xB000)
  | .rnd _ _ => (0xF000, 0xC000)
  | .drw _ _ _ => (0xF000, 0xD000)
  | .skp _ => (0xF0FF, 0xE09E)
  | .sknp _ => (0xF0FF, 0xE0A1)
  | .ldXDT _ => (0xF0FF, 0xF007)
  | .ldXK _ => (0xF0FF, 0xF00A)
  | .ldDTX _ => (0xF0FF, 0xF015)
  | .ldSTX _ => (0xF0FF, 0xF018)
  | .addI _ => (0xF0FF, 0xF01E)
  | .ldF _ => (0xF0FF, 0xF029)
  | .ldB _ => (0xF0FF, 0xF033)
  | .ldMemX _ => (0xF0FF, 0xF055)
  | .ldXMem _ => (0xF0FF, 0xF065)

/-- The word of an instruction has its row's fixed bits. -/
def Statement (i : Instr) : Prop := encodeWord i &&& (row i).1 = (row i).2

@[simp] theorem and_allOnes (f : BitVec 4) : f &&& 0xF#4 = f := BitVec.and_allOnes

@[simp] theorem byte_and_allOnes (kk : Byte) : kk &&& 0xFF#8 = kk := BitVec.and_allOnes

theorem formatAddr_mask (f : BitVec 4) (nnn : Addr12) : formatAddr f nnn &&& 0xF000 = f ++ 0#12 := by
  show (f ++ nnn) &&& ((0xF#4 : BitVec 4) ++ 0#12) = _
  rw [BitVec.and_append]
  simp

theorem formatRImm_mask (f : BitVec 4) (x : Reg) (kk : Byte) :
    formatRImm f x kk &&& 0xF000 = f ++ 0#4 ++ 0#8 := by
  show (f ++ regField x ++ kk) &&& ((0xF#4 : BitVec 4) ++ 0#4 ++ 0#8) = _
  rw [BitVec.and_append, BitVec.and_append]
  simp

theorem formatRImm_byteMask (f : BitVec 4) (x : Reg) (kk : Byte) :
    formatRImm f x kk &&& 0xF0FF = f ++ 0#4 ++ kk := by
  show (f ++ regField x ++ kk) &&& ((0xF#4 : BitVec 4) ++ 0#4 ++ 0xFF#8) = _
  rw [BitVec.and_append, BitVec.and_append]
  simp

theorem formatRR_mask (f : BitVec 4) (x y : Reg) (n : BitVec 4) :
    formatRR f x y n &&& 0xF000 = f ++ 0#4 ++ 0#4 ++ 0#4 := by
  show (f ++ regField x ++ regField y ++ n : BitVec (4 + 4 + 4 + 4)) &&& ((0xF#4 : BitVec 4) ++ 0#4 ++ 0#4 ++ 0#4) = _
  rw [BitVec.and_append, BitVec.and_append, BitVec.and_append]
  simp

theorem formatRR_nibbleMask (f : BitVec 4) (x y : Reg) (n : BitVec 4) :
    formatRR f x y n &&& 0xF00F = f ++ 0#4 ++ 0#4 ++ n := by
  show (f ++ regField x ++ regField y ++ n : BitVec (4 + 4 + 4 + 4)) &&& ((0xF#4 : BitVec 4) ++ 0#4 ++ 0#4 ++ 0xF#4) = _
  rw [BitVec.and_append, BitVec.and_append, BitVec.and_append]
  simp

theorem sys (nnn : Addr12) : Statement (.sys nnn) := (formatAddr_mask _ _).trans rfl
theorem cls : Statement .cls := rfl
theorem ret : Statement .ret := rfl
theorem jp (nnn : Addr12) : Statement (.jp nnn) := (formatAddr_mask _ _).trans rfl
theorem call (nnn : Addr12) : Statement (.call nnn) := (formatAddr_mask _ _).trans rfl
theorem seImm (x : Reg) (kk : Byte) : Statement (.seImm x kk) := (formatRImm_mask _ _ _).trans rfl
theorem sneImm (x : Reg) (kk : Byte) : Statement (.sneImm x kk) := (formatRImm_mask _ _ _).trans rfl
theorem seReg (x y : Reg) : Statement (.seReg x y) := (formatRR_mask _ _ _ _).trans rfl
theorem ldImm (x : Reg) (kk : Byte) : Statement (.ldImm x kk) := (formatRImm_mask _ _ _).trans rfl
theorem addImm (x : Reg) (kk : Byte) : Statement (.addImm x kk) := (formatRImm_mask _ _ _).trans rfl
theorem ldReg (x y : Reg) : Statement (.ldReg x y) := (formatRR_nibbleMask _ _ _ _).trans rfl
theorem orReg (x y : Reg) : Statement (.orReg x y) := (formatRR_nibbleMask _ _ _ _).trans rfl
theorem andReg (x y : Reg) : Statement (.andReg x y) := (formatRR_nibbleMask _ _ _ _).trans rfl
theorem xorReg (x y : Reg) : Statement (.xorReg x y) := (formatRR_nibbleMask _ _ _ _).trans rfl
theorem addReg (x y : Reg) : Statement (.addReg x y) := (formatRR_nibbleMask _ _ _ _).trans rfl
theorem sub (x y : Reg) : Statement (.sub x y) := (formatRR_nibbleMask _ _ _ _).trans rfl
theorem shr (x y : Reg) : Statement (.shr x y) := (formatRR_nibbleMask _ _ _ _).trans rfl
theorem subn (x y : Reg) : Statement (.subn x y) := (formatRR_nibbleMask _ _ _ _).trans rfl
theorem shl (x y : Reg) : Statement (.shl x y) := (formatRR_nibbleMask _ _ _ _).trans rfl
theorem sneReg (x y : Reg) : Statement (.sneReg x y) := (formatRR_mask _ _ _ _).trans rfl
theorem ldI (nnn : Addr12) : Statement (.ldI nnn) := (formatAddr_mask _ _).trans rfl
theorem jpV0 (nnn : Addr12) : Statement (.jpV0 nnn) := (formatAddr_mask _ _).trans rfl
theorem rnd (x : Reg) (kk : Byte) : Statement (.rnd x kk) := (formatRImm_mask _ _ _).trans rfl
theorem drw (x y : Reg) (n : Fin 16) : Statement (.drw x y n) := (formatRR_mask _ _ _ _).trans rfl
theorem skp (x : Reg) : Statement (.skp x) := (formatRImm_byteMask _ _ _).trans rfl
theorem sknp (x : Reg) : Statement (.sknp x) := (formatRImm_byteMask _ _ _).trans rfl
theorem ldXDT (x : Reg) : Statement (.ldXDT x) := (formatRImm_byteMask _ _ _).trans rfl
theorem ldXK (x : Reg) : Statement (.ldXK x) := (formatRImm_byteMask _ _ _).trans rfl
theorem ldDTX (x : Reg) : Statement (.ldDTX x) := (formatRImm_byteMask _ _ _).trans rfl
theorem ldSTX (x : Reg) : Statement (.ldSTX x) := (formatRImm_byteMask _ _ _).trans rfl
theorem addI (x : Reg) : Statement (.addI x) := (formatRImm_byteMask _ _ _).trans rfl
theorem ldF (x : Reg) : Statement (.ldF x) := (formatRImm_byteMask _ _ _).trans rfl
theorem ldB (x : Reg) : Statement (.ldB x) := (formatRImm_byteMask _ _ _).trans rfl
theorem ldMemX (x : Reg) : Statement (.ldMemX x) := (formatRImm_byteMask _ _ _).trans rfl
theorem ldXMem (x : Reg) : Statement (.ldXMem x) := (formatRImm_byteMask _ _ _).trans rfl

end Sys2Proof.Laws.EncodesInRow
end

