-- ==== Sys2Proof/Laws/Step.lean ====
section
/-! SUPPORT. What a cycle and a step can do, said once. -/

namespace Sys2Proof.Machine

variable {s t : State}

/-- While the machine runs a step is its next event, taken off the schedule. -/
theorem step_running (h : s.runState = .running) : step s = s.takeEvent.perform s.nextEvent := by
  simp [step, State.schedulerStep, h]

theorem step_stopped (h : s.runState = .stopped) : step s = .fault .runStopped := by
  simp [step, State.schedulerStep, h]

theorem step_faulted (h : s.runState = .faulted) : step s = .fault .runFaulted := by
  simp [step, State.schedulerStep, h]

/-- Everything a cycle can do: a fetch fault, a decode fault, or the execute phase of the fetched instruction. -/
theorem State.cycle_cases (s : State) :
    (∃ bad, fetchWord s.mem s.pc.toNat = .error bad ∧ 4096 ≤ bad ∧
      s.cycle = .next (s.raise ⟨.memory, s.pc, none, some bad⟩)) ∨
    (∃ op e, fetchWord s.mem s.pc.toNat = .ok op ∧ s.pc.toNat + 1 < 4096 ∧ decodeWord op = .error e ∧
      s.cycle = .next ((s.setPc (s.pc + 2)).raise ⟨.decode, s.pc, some op, none⟩)) ∨
    (∃ op i, fetchWord s.mem s.pc.toNat = .ok op ∧ s.pc.toNat + 1 < 4096 ∧ decodeWord op = .ok i ∧
      s.cycle = exec i (s.setPc (s.pc + 2))) := by
  rcases fetchWord_cases s.mem s.pc.toNat with ⟨hf, hlt⟩ | ⟨hf, hge⟩ | ⟨hf, hge⟩
  · cases hd : decodeWord (wordOfBytes (Memory.byteAt s.mem s.pc.toNat) (Memory.byteAt s.mem (s.pc.toNat + 1))) with
    | error e => exact .inr (.inl ⟨_, e, hf, hlt, hd, by simp [State.cycle, hf, decodeAndExec, hd]⟩)
    | ok i => exact .inr (.inr ⟨_, i, hf, hlt, hd, by simp [State.cycle, hf, decodeAndExec, hd]⟩)
  · exact .inl ⟨_, hf, hge, by simp [State.cycle, hf]⟩
  · exact .inl ⟨_, hf, by omega, by simp [State.cycle, hf]⟩

/-- Everything a step that answers a next state can be. -/
theorem step_cases (h : step s = .next t) :
    s.runState = .running ∧
      ((s.nextEvent = .cycle ∧ s.takeEvent.cycle = .next t) ∨
       (s.nextEvent = .tick ∧ t = s.takeEvent.tick) ∨
       (∃ k, s.nextEvent = .sample k ∧ t = s.takeEvent.sample k) ∨
       (s.nextEvent = .stop ∧ t = s.takeEvent.stop)) := by
  cases hr : s.runState with
  | running =>
    refine ⟨rfl, ?_⟩
    rw [step_running hr] at h
    cases he : s.nextEvent with
    | cycle => rw [he] at h; exact .inl ⟨rfl, h⟩
    | tick => rw [he] at h; cases h; exact .inr (.inl ⟨rfl, rfl⟩)
    | sample k => rw [he] at h; cases h; exact .inr (.inr (.inl ⟨k, rfl, rfl⟩))
    | stop => rw [he] at h; cases h; exact .inr (.inr (.inr ⟨rfl, rfl⟩))
  | stopped => rw [step_stopped hr] at h; cases h
  | faulted => rw [step_faulted hr] at h; cases h

/-- A running machine with a whole word at `pc` and a CYCLE next decodes and executes that word. -/
theorem step_fetched (hr : s.runState = .running) (he : s.nextEvent = .cycle) (hp : s.pc.toNat + 1 < 4096) :
    step s = decodeAndExec s.pc (wordOfBytes (s.mem.byteAt s.pc.toNat) (s.mem.byteAt (s.pc.toNat + 1)))
      (s.takeEvent.setPc (s.pc + 2)) := by
  rw [step_running hr, he]
  simp only [State.perform, State.cycle, State.takeEvent_mem, State.takeEvent_pc, fetchWord_ok hp]

/-- A word placed where the next step fetches is what that step fetches (log entry 15). -/
theorem State.withFetchWord_step (hw : s.mem.wf) (nbits w : Nat) :
    step (s.withFetchWord nbits w) =
      decodeAndExec (s.withFetchWord nbits w).pc (tableWord nbits w)
        ((s.withFetchWord nbits w).takeEvent.setPc ((s.withFetchWord nbits w).pc + 2)) := by
  have hpc : s.readyToFetch.pc.toNat + 1 < 4096 := by
    unfold State.readyToFetch
    dsimp only
    split
    · next h => exact h
    · simp
  have hev : (s.withFetchWord nbits w).nextEvent = .cycle := by
    unfold State.withFetchWord State.readyToFetch State.nextEvent
    dsimp only
    split
    · next h => exact h
    · rfl
  have hb := Memory.byteAt_putBytes hw s.readyToFetch.pc.toNat
    [highByte (tableWord nbits w), lowByte (tableWord nbits w)] (by simp; omega)
  have hf : fetchWord (s.withFetchWord nbits w).mem (s.withFetchWord nbits w).pc.toNat =
      .ok (tableWord nbits w) := by
    show fetchWord (s.mem.putWord s.readyToFetch.pc.toNat (tableWord nbits w)) s.readyToFetch.pc.toNat = _
    rw [fetchWord_ok hpc, Memory.putWord]
    rw [hb, hb, dif_pos (by simp), dif_pos (by simp)]
    simp
  rw [step_running rfl, hev]
  simp only [State.perform, State.cycle, State.takeEvent_mem, State.takeEvent_pc, hf]

end Sys2Proof.Machine
end

