-- ==== Sys2Proof/Tests/Slice0.lean ====
section
/-! SUPPORT. The model's own tests: the well-formedness smoke, each constructor's word written out from
spec/opcode_table.json, single steps with the results of spec/95_test_vectors.md, and for each statement with hypotheses
a witness that meets them. -/

namespace Sys2Proof.Tests

open Sys2Proof.Machine
open Sys2Proof.Safety

/-! ### Well-formedness: what the checks refuse -/

theorem test_sys_00E0_is_no_sys : (Instr.sys 0x0E0).wellFormed = false := by decide
theorem test_sys_00EE_is_no_sys : (Instr.sys 0x0EE).wellFormed = false := by decide
theorem test_sys_is_illegal_under_fault_policy : (Instr.sys 0x123).wellFormedWith .fault = false := by decide
theorem test_sys_is_well_formed : (Instr.sys 0x1E0).wellFormed = true := by decide

/-! ### Decoding: words written out bit by bit from spec/opcode_table.json -/

theorem test_decode_sys : decodeTableWord 16 0b0000000111100000 = some (.sys 0x1E0) := by decide
theorem test_decode_cls : decodeTableWord 16 0b0000000011100000 = some (.cls) := by decide
theorem test_decode_ret : decodeTableWord 16 0b0000000011101110 = some (.ret) := by decide
theorem test_decode_jp : decodeTableWord 16 0b0001001000101000 = some (.jp 0x228) := by decide
theorem test_decode_call : decodeTableWord 16 0b0010001100000000 = some (.call 0x300) := by decide
theorem test_decode_seImm : decodeTableWord 16 0b0011101000000101 = some (.seImm 10 0x05) := by decide
theorem test_decode_sneImm : decodeTableWord 16 0b0100101000000101 = some (.sneImm 10 0x05) := by decide
theorem test_decode_seReg : decodeTableWord 16 0b0101000100100001 = some (.seReg 1 2) := by decide
theorem test_decode_ldImm : decodeTableWord 16 0b0110000000001010 = some (.ldImm 0 0x0A) := by decide
theorem test_decode_addImm : decodeTableWord 16 0b0111000000000101 = some (.addImm 0 0x05) := by decide
theorem test_decode_ldReg : decodeTableWord 16 0b1000000100100000 = some (.ldReg 1 2) := by decide
theorem test_decode_orReg : decodeTableWord 16 0b1000000100100001 = some (.orReg 1 2) := by decide
theorem test_decode_andReg : decodeTableWord 16 0b1000000100100010 = some (.andReg 1 2) := by decide
theorem test_decode_xorReg : decodeTableWord 16 0b1000000100100011 = some (.xorReg 1 2) := by decide
theorem test_decode_addReg : decodeTableWord 16 0b1000000100100100 = some (.addReg 1 2) := by decide
theorem test_decode_sub : decodeTableWord 16 0b1000000100100101 = some (.sub 1 2) := by decide
theorem test_decode_shr : decodeTableWord 16 0b1000000100100110 = some (.shr 1 2) := by decide
theorem test_decode_subn : decodeTableWord 16 0b1000000100100111 = some (.subn 1 2) := by decide
theorem test_decode_shl : decodeTableWord 16 0b1000000100101110 = some (.shl 1 2) := by decide
theorem test_decode_sneReg : decodeTableWord 16 0b1001000100101111 = some (.sneReg 1 2) := by decide
theorem test_decode_ldI : decodeTableWord 16 0b1010001011110000 = some (.ldI 0x2F0) := by decide
theorem test_decode_jpV0 : decodeTableWord 16 0b1011111100000000 = some (.jpV0 0xF00) := by decide
theorem test_decode_rnd : decodeTableWord 16 0b1100000100001111 = some (.rnd 1 0x0F) := by decide
theorem test_decode_drw : decodeTableWord 16 0b1101000100100101 = some (.drw 1 2 5) := by decide
theorem test_decode_skp : decodeTableWord 16 0b1110000110011110 = some (.skp 1) := by decide
theorem test_decode_sknp : decodeTableWord 16 0b1110000110100001 = some (.sknp 1) := by decide
theorem test_decode_ldXDT : decodeTableWord 16 0b1111001000000111 = some (.ldXDT 2) := by decide
theorem test_decode_ldXK : decodeTableWord 16 0b1111001100001010 = some (.ldXK 3) := by decide
theorem test_decode_ldDTX : decodeTableWord 16 0b1111000000010101 = some (.ldDTX 0) := by decide
theorem test_decode_ldSTX : decodeTableWord 16 0b1111000100011000 = some (.ldSTX 1) := by decide
theorem test_decode_addI : decodeTableWord 16 0b1111001100011110 = some (.addI 3) := by decide
theorem test_decode_ldF : decodeTableWord 16 0b1111010100101001 = some (.ldF 5) := by decide
theorem test_decode_ldB : decodeTableWord 16 0b1111001100110011 = some (.ldB 3) := by decide
theorem test_decode_ldMemX : decodeTableWord 16 0b1111001001010101 = some (.ldMemX 2) := by decide
theorem test_decode_ldXMem : decodeTableWord 16 0b1111111101100101 = some (.ldXMem 15) := by decide

/-- Words that spec/95_test_vectors.md L2-D8, L2-D9, L2-D11, L2-D12 and L2-F9 give as illegal. -/
theorem test_decode_illegal :
    decodeWord 0x8128 = .error .illegalFamily8 ∧ decodeWord 0x812F = .error .illegalFamily8 ∧
    decodeWord 0xE09F = .error .illegalFamilyE ∧ decodeWord 0xF000 = .error .illegalFamilyF ∧
    decodeWith .fault 0x0123 = .error .illegalFamily0 := by decide

theorem test_decode_truncated :
    decodeBytes [] = .error .truncated ∧ decodeBytes [0x12] = .error .truncated := by decide

/-- Bytes come high first, and what follows is handed back. -/
theorem test_decode_bytes : decodeBytes [0x60, 0x0A, 0x70] = .ok (.ldImm 0 0x0A, [0x70]) := by decide

/-! ### Single steps, with the results of spec/95_test_vectors.md -/

/-- The state one step after a word is placed where the step fetches. -/
def after (w : Nat) (s : State) : Option State :=
  match step (s.withFetchWord 16 w) with
  | .next t => some t
  | .fault _ => none
  | .refused _ => none

/-- Reset with two registers set. -/
def withRegs (x : Reg) (a : Byte) (y : Reg) (b : Byte) : State := (State.reset.setV x a).setV y b

/-- Reset with `I` and bytes of memory from there. -/
def withBytes (i : Nat) (bs : List Byte) : State :=
  (State.reset.setI (BitVec.ofNat 16 i)).setMem (State.reset.mem.putBytes i bs)

/-- The bytes of memory after a step. -/
def bytesOf (a len : Nat) (s : Option State) : Option (List Byte) := s.map fun t => t.mem.bytesFrom a len

/-- A register and VF after a step. -/
def regAndFlag (x : Reg) (s : Option State) : Option (Byte × Byte) := s.map fun t => (t.getV x, t.getV vF)

/-- The program counter after a step. -/
def pcOf (s : Option State) : Option Word := s.map fun t => t.pc

/-- The fault record after a step, with the scheduler's state and the program counter. -/
def faultOf (s : Option State) : Option (RunState × Option FaultRecord × Word) :=
  s.map fun t => (t.runState, t.fault, t.pc)

theorem test_sys_L2_C1 :
    after 0x0000 State.reset = some { (State.reset.withFetchWord 16 0x0000) with pc := 0x202, pending := [] } := by decide
theorem test_cls_L2_G12 :
    (after 0x00E0 ((State.reset.setDisplay (State.reset.display.setPixel 31 63 true)).setV vF 1)).map (fun t => (t.display, t.getV vF)) = some (Display.blank, 1) := by decide
theorem test_ret_L2_C8 :
    (after 0x00EE (State.reset.setStack ((State.reset.stack.set 0 0x222).set 1 0x246) 2)).map (fun t => (t.sp, t.pc, t.stack.get 1)) = some (1, 0x246, 0x246) := by decide
theorem test_ret_L2_C7 :
    faultOf (after 0x00EE State.reset) = some (.faulted, some ⟨.stackUnderflow, 0x200, some 0x00EE, none⟩, 0x202) := by decide
theorem test_jp_L2_C2 : pcOf (after 0x1228 State.reset) = some 0x228 := by decide
theorem test_call_L2_C5 :
    (after 0x2300 (State.reset.setStack State.reset.stack 15)).map (fun t => (t.sp, t.pc, t.stack.get 15)) = some (16, 0x300, 0x202) := by decide
theorem test_call_L2_C6 :
    faultOf (after 0x2300 (State.reset.setStack State.reset.stack 16)) = some (.faulted, some ⟨.stackOverflow, 0x200, some 0x2300, none⟩, 0x202) := by decide
theorem test_seImm_L2_S1 : pcOf (after 0x3A05 (State.reset.setV 10 0x05)) = some 0x204 := by decide
theorem test_seImm_L2_S2 : pcOf (after 0x3A05 (State.reset.setV 10 0x06)) = some 0x202 := by decide
theorem test_sneImm_L2_S3 : pcOf (after 0x4A05 (State.reset.setV 10 0x06)) = some 0x204 := by decide
theorem test_sneImm_L2_S4 : pcOf (after 0x4A05 (State.reset.setV 10 0x05)) = some 0x202 := by decide
theorem test_seReg_L2_S10 : pcOf (after 0x5121 (withRegs 1 0x07 2 0x07)) = some 0x204 := by decide
theorem test_seReg_L2_S6 : pcOf (after 0x5120 (withRegs 1 0x33 2 0x34)) = some 0x202 := by decide
theorem test_sneReg_L2_S8 : pcOf (after 0x9120 (withRegs 1 0x33 2 0x34)) = some 0x204 := by decide
theorem test_sneReg_L2_S9 : pcOf (after 0x9110 (withRegs 1 0x33 2 0x34)) = some 0x202 := by decide
theorem test_ldImm_L2_A2 : regAndFlag 15 (after 0x6F07 State.reset) = some (0x07, 0x07) := by decide
theorem test_addImm_L2_A3 : regAndFlag 1 (after 0x7101 (State.reset.setV 1 0xFF)) = some (0x00, 0) := by decide
theorem test_addImm_L2_A4 : regAndFlag 15 (after 0x7F01 (State.reset.setV 15 0x01)) = some (0x02, 0x02) := by decide
theorem test_ldReg_L2_A5 : regAndFlag 1 (after 0x8120 (State.reset.setV 2 0x7F)) = some (0x7F, 0) := by decide
theorem test_orReg_L2_A6 :
    regAndFlag 1 (after 0x8121 ((withRegs 1 0xF0 2 0x0F).setV vF 1)) = some (0xFF, 1) := by decide
theorem test_andReg_L2_A7 : regAndFlag 1 (after 0x8122 (withRegs 1 0xF0 2 0x3C)) = some (0x30, 0) := by decide
theorem test_xorReg_L2_A8 : regAndFlag 1 (after 0x8123 (withRegs 1 0xF0 2 0x3C)) = some (0xCC, 0) := by decide
theorem test_addReg_L2_A10 : regAndFlag 15 (after 0x8F14 (withRegs 15 0xFF 1 0x01)) = some (0x01, 0x01) := by decide
theorem test_addReg_L2_A11 : regAndFlag 1 (after 0x81F4 (withRegs 15 0x05 1 0x03)) = some (0x08, 0) := by decide
theorem test_sub_L1_2 : regAndFlag 1 (after 0x8125 (withRegs 1 0x10 2 0x30)) = some (0xE0, 0) := by decide
theorem test_sub_L2_A13 : regAndFlag 1 (after 0x8125 (withRegs 1 0x05 2 0x05)) = some (0x00, 0) := by decide
theorem test_shr_L2_A18 : regAndFlag 1 (after 0x8126 (withRegs 1 0x02 2 0x01)) = some (0x01, 0) := by decide
theorem test_shr_L2_A19 : regAndFlag 15 (after 0x8F06 (State.reset.setV 15 0x03)) = some (1, 1) := by decide
theorem test_subn_L2_A20 : regAndFlag 1 (after 0x8127 (withRegs 1 0x10 2 0x30)) = some (0x20, 1) := by decide
theorem test_subn_L2_A22 : regAndFlag 1 (after 0x8127 (withRegs 1 0x01 2 0x00)) = some (0xFF, 0) := by decide
theorem test_shl_L2_A24 : regAndFlag 1 (after 0x810E (State.reset.setV 1 0x7F)) = some (0xFE, 0) := by decide
theorem test_shl_L2_A25 : regAndFlag 15 (after 0x8FFE (State.reset.setV 15 0x81)) = some (1, 1) := by decide
theorem test_rnd_advances :
    (after 0xC10F State.reset).map (fun t => (t.draws, t.pc, t.getV 2)) = some (1, 0x202, 0) := by decide
theorem test_ldI_L2_M1 : (after 0xA2F0 State.reset).map (fun t => t.i) = some 0x2F0 := by decide
theorem test_jpV0_L2_C10 : pcOf (after 0xBF00 (State.reset.setV 0 0xFF)) = some 0x0FFF := by decide
theorem test_jpV0_L2_C11 : pcOf (after 0xBFFF (State.reset.setV 0 0x01)) = some 0x1000 := by decide
theorem test_skp_L2_S11 : pcOf (after 0xE19E ((State.reset.setV 1 0x5).sample (some 0x5))) = some 0x204 := by decide
theorem test_skp_L2_S14 : pcOf (after 0xE19E ((State.reset.setV 1 0x15).sample (some 0x5))) = some 0x202 := by decide
theorem test_sknp_L2_S15 : pcOf (after 0xE1A1 (State.reset.setV 1 0x5)) = some 0x204 := by decide
theorem test_sknp_L2_S16 : pcOf (after 0xE1A1 ((State.reset.setV 1 0x5).sample (some 0x5))) = some 0x202 := by decide
theorem test_ldXDT_L2_T1 : regAndFlag 2 (after 0xF207 (State.reset.setDelay 0x3C)) = some (0x3C, 0) := by decide
theorem test_ldXK_L2_T8 : (after 0xF30A State.reset).map (fun t => (t.pc, t.getV 3)) = some (0x200, 0) := by decide
theorem test_ldXK_L2_T10 :
    (after 0xF30A ((State.reset.setV 3 9).sample (some 0x0))).map (fun t => (t.pc, t.getV 3, t.latch)) = some (0x202, 0x00, some 0x0) := by decide
theorem test_ldDTX_L1_10 :
    (after 0xF015 (State.reset.setV 0 3)).map (fun t => (t.dt, t.st)) = some (3, 0) := by decide
theorem test_ldSTX_L2_T7 :
    (after 0xF018 (State.reset.setV 0 9)).map (fun t => (t.st, t.dt)) = some (9, 0) := by decide
theorem test_addI_L2_M4 :
    (after 0xF11E ((State.reset.setV 1 0x01).setI 0xFFFF)).map (fun t => (t.i, t.getV vF)) = some (0x0000, 0) := by decide
theorem test_addI_L2_M3 :
    (after 0xF11E ((State.reset.setV 1 0x01).setI 0x0FFF)).map (fun t => (t.i, t.getV vF)) = some (0x1000, 0) := by decide
theorem test_ldF_L2_M9 : (after 0xF529 (State.reset.setV 5 0xFF)).map (fun t => t.i) = some 0x4FB := by decide
theorem test_ldB_L2_M10 :
    bytesOf 0x300 3 (after 0xF333 ((withBytes 0x300 []).setV 3 0x9C)) = some [1, 5, 6] := by decide
theorem test_ldB_L2_M14 :
    bytesOf 0xFFD 3 (after 0xF333 ((withBytes 0xFFD []).setV 3 0xFF)) = some [2, 5, 5] := by decide
theorem test_ldMemX_L2_M17 :
    bytesOf 0x300 4 (after 0xF255 (((withRegs 0 1 1 2).setV 2 3).setI 0x300)) = some [1, 2, 3, 0] := by decide
theorem test_ldMemX_L2_M20 :
    faultOf (after 0xFF55 (State.reset.setI 0xFF1)) = some (.faulted, some ⟨.memory, 0x200, some 0xFF55, some 0x1000⟩, 0x202) := by decide
theorem test_ldXMem_L2_M22 :
    (after 0xF465 State.reset).map (fun t => t.regsUpTo 5) = some [0xF0, 0x90, 0x90, 0x90, 0xF0, 0] := by decide
theorem test_ldXMem_L2_M23 :
    (after 0xFF65 (withBytes 0x300 [16, 17, 18, 19, 20, 21, 22, 23, 24, 25, 26, 27, 28, 29, 30, 31])).map (fun t => (t.getV 0, t.getV vF, t.i)) = some (0x10, 0x1F, 0x300) := by decide
theorem test_drw_L1_5 :
    (after 0xD011 ((withBytes 0x300 [0xFF]).setV 0 63)).map (fun t => (t.display.pixel 0 63, t.display.pixel 0 6, t.display.pixel 0 7, t.getV vF)) = some (true, true, false, 0) := by decide
theorem test_drw_L2_G11 :
    (after 0xDF11 ((withBytes 0x300 [0x80]).setV vF 3)).map (fun t => (t.display.pixel 0 3, t.display.pixel 0 0, t.getV vF)) = some (true, false, 0) := by decide

/-- spec/95_test_vectors.md L2-A27, with the draw free: the mask alone decides the high nibble. -/
theorem test_rnd_masks_the_draw : (after 0xC10F State.reset).map (fun t => t.getV 1) = some (Config.draw 0 &&& 0x0F) := rfl

/-! ### Faults, events and reset -/

theorem test_decode_fault_L2_F5 :
    faultOf (after 0xE000 State.reset) = some (.faulted, some ⟨.decode, 0x200, some 0xE000, none⟩, 0x202) := by decide
theorem test_fetch_fault_L2_F3 :
    (match step (State.reset.setPc 0xFFF) with | .next t => some t.fault | _ => none) = some (some ⟨.memory, 0xFFF, none, some 0x1000⟩) := by decide
theorem test_fetch_at_the_top_L2_F2 : pcOf (after 0x1200 (State.reset.setPc 0xFFE)) = some 0x200 := by decide
theorem test_odd_pc_L2_F4 :
    (after 0x6055 (State.reset.setPc 0x201)).map (fun t => (t.getV 0, t.pc)) = some (0x55, 0x203) := by decide
theorem test_tick_L2_T4 :
    (match step { State.reset with dt := 5, st := 1, pending := [.tick] } with | .next t => some (t.dt, t.st, t.pending) | _ => none) = some (4, 0, []) := by decide
theorem test_sample_L2_T11 :
    (match step { State.reset with latch := some 4, pending := [.sample none] } with | .next t => some t.latch | _ => none) = some none := by decide
theorem test_stop_ends :
    (match step { State.reset with pending := [.stop] } with | .next t => some t.runState | _ => none) = some .stopped := by decide
theorem test_reset_font_L2_F11 :
    State.reset.mem.bytesFrom 0 5 = [0xF0, 0x90, 0x90, 0x90, 0xF0] ∧ State.reset.mem.bytesFrom 0x4B 5 = [0xF0, 0x80, 0xF0, 0x80, 0x80] := by decide
theorem test_load_L1_7 :
    (match State.reset.load [0x60, 0x0A, 0x70, 0x05] with | .next t => some (t.mem.bytesFrom 0x200 5) | _ => none) = some [0x60, 0x0A, 0x70, 0x05, 0] := by decide
theorem test_increment_policy_L2_F10 :
    (match execLdMemXWith true 2 (State.reset.setI 0x300) with | .next t => some t.i | _ => none) = some 0x303 := by decide

/-! ### Witnesses: for each statement with hypotheses, states and operands that meet them -/

/-- A word at 0x200 of the reset state. -/
def holding (w : Nat) : State := State.reset.withFetchWord 16 w

/-- The CPU at an `F30A` with no key latched. -/
def waiting : State := { holding 0xF30A with dt := 2 }

/-- A state other than reset that meets the invariant. -/
def afterKey : State := { State.reset with latch := some 5, pc := 0x202, i := 0x300 }

theorem witness_StepRunsTheFetchedWord_outside :
    (State.reset.setPc 0x1000).runState = .running ∧ (State.reset.setPc 0x1000).nextEvent = .cycle ∧
    4096 ≤ (State.reset.setPc 0x1000).pc.toNat := by decide

theorem witness_StepRunsTheFetchedWord_split :
    (State.reset.setPc 0xFFF).runState = .running ∧ (State.reset.setPc 0xFFF).nextEvent = .cycle ∧
    (State.reset.setPc 0xFFF).pc.toNat = 4095 := by decide

theorem witness_StepRunsTheFetchedWord_inside :
    let s := (State.reset.setPc 0xFFE).withFetchWord 16 0x1200
    s.runState = .running ∧ s.nextEvent = .cycle ∧ s.pc.toNat + 1 < 4096 ∧ s.pc.toNat = 4094 ∧
    (0x1200#16).toNat = 256 * (s.mem.byteAt s.pc.toNat).toNat + (s.mem.byteAt (s.pc.toNat + 1)).toNat ∧
    decodeWord 0x1200 = .ok (.jp 0x200) := by decide

theorem witness_StepRunsTheFetchedWord_illegal :
    let s := holding 0xE000
    s.runState = .running ∧ s.nextEvent = .cycle ∧ s.pc.toNat + 1 < 4096 ∧
    (0xE000#16).toNat = 256 * (s.mem.byteAt s.pc.toNat).toNat + (s.mem.byteAt (s.pc.toNat + 1)).toNat ∧
    decodeWord 0xE000 = .error .illegalFamilyE := by decide

theorem witness_DecodeInvertsEncode :
    (Instr.sys 0x0E1).wellFormed = true ∧ (Instr.drw 15 15 15).wellFormed = true := by decide

theorem witness_EncodeInvertsDecode_exact : decodeWord 0xDFFF = .ok (.drw 15 15 15) := by decide

theorem witness_EncodeInvertsDecode_nibble :
    decodeWord 0x5FFF = .ok (.seReg 15 15) ∧ decodeWord 0x912F = .ok (.sneReg 1 2) := by decide

theorem witness_IllegalWordsAreExactly :
    (0x800F#16).toNat / 4096 = 8 ∧ (0x800F#16).toNat % 16 ∈ [8, 9, 10, 11, 12, 13, 15] ∧
    (0xEFA0#16).toNat / 4096 = 0xE ∧ (0xEFA0#16).toNat % 256 ∉ [0x9E, 0xA1] ∧
    (0xFFFF#16).toNat / 4096 = 0xF ∧
    (0xFFFF#16).toNat % 256 ∉ [0x07, 0x0A, 0x15, 0x18, 0x1E, 0x29, 0x33, 0x55, 0x65] ∧
    (0x00E1#16).toNat / 4096 = 0 ∧ 0x00E1#16 ≠ 0x00E0#16 ∧ 0x00E1#16 ≠ 0x00EE#16 := by decide

theorem witness_OpcodeTableRowsDecode_sys :
    (0x00EF#16) &&& 0xF000 = 0x0000 ∧ (0x00EF#16) ≠ 0x00E0#16 ∧ (0x00EF#16) ≠ 0x00EE#16 := by decide

/-- For every instruction row with fields, the all-ones word of the row meets its mask and match. -/
theorem witness_RowDecodes_families :
    (0x1FFF#16) &&& 0xF000 = 0x1000 ∧ (0x2FFF#16) &&& 0xF000 = 0x2000 ∧ (0x3FFF#16) &&& 0xF000 = 0x3000 ∧
    (0x4FFF#16) &&& 0xF000 = 0x4000 ∧ (0x5FFF#16) &&& 0xF000 = 0x5000 ∧ (0x6FFF#16) &&& 0xF000 = 0x6000 ∧
    (0x7FFF#16) &&& 0xF000 = 0x7000 ∧ (0x9FFF#16) &&& 0xF000 = 0x9000 ∧ (0xAFFF#16) &&& 0xF000 = 0xA000 ∧
    (0xBFFF#16) &&& 0xF000 = 0xB000 ∧ (0xCFFF#16) &&& 0xF000 = 0xC000 ∧ (0xDFFF#16) &&& 0xF000 = 0xD000 ∧
    (0x00E0#16) &&& 0xFFFF = 0x00E0 ∧ (0x00EE#16) &&& 0xFFFF = 0x00EE := by decide

theorem witness_RowDecodes_nibbles :
    (0x8FF0#16) &&& 0xF00F = 0x8000 ∧ (0x8FF1#16) &&& 0xF00F = 0x8001 ∧ (0x8FF2#16) &&& 0xF00F = 0x8002 ∧
    (0x8FF3#16) &&& 0xF00F = 0x8003 ∧ (0x8FF4#16) &&& 0xF00F = 0x8004 ∧ (0x8FF5#16) &&& 0xF00F = 0x8005 ∧
    (0x8FF6#16) &&& 0xF00F = 0x8006 ∧ (0x8FF7#16) &&& 0xF00F = 0x8007 ∧ (0x8FFE#16) &&& 0xF00F = 0x800E := by decide

theorem witness_RowDecodes_bytes :
    (0xEF9E#16) &&& 0xF0FF = 0xE09E ∧ (0xEFA1#16) &&& 0xF0FF = 0xE0A1 ∧ (0xFF07#16) &&& 0xF0FF = 0xF007 ∧
    (0xFF0A#16) &&& 0xF0FF = 0xF00A ∧ (0xFF15#16) &&& 0xF0FF = 0xF015 ∧ (0xFF18#16) &&& 0xF0FF = 0xF018 ∧
    (0xFF1E#16) &&& 0xF0FF = 0xF01E ∧ (0xFF29#16) &&& 0xF0FF = 0xF029 ∧ (0xFF33#16) &&& 0xF0FF = 0xF033 ∧
    (0xFF55#16) &&& 0xF0FF = 0xF055 ∧ (0xFF65#16) &&& 0xF0FF = 0xF065 := by decide

/-- The clause `x ≠ vF` of the flag-setting instructions, and both values of each flag. -/
theorem witness_AddRegistersSetsCarry :
    (14 : Reg) ≠ vF ∧ (0x80#8).toNat + (0x80#8).toNat > 255 ∧ ¬ (0x80#8).toNat + (0x7F#8).toNat > 255 := by decide

theorem witness_SubtractFormsSetNotBorrow :
    (14 : Reg) ≠ vF ∧ (6#8).toNat > (5#8).toNat ∧ ¬ (5#8).toNat > (5#8).toNat := by decide

theorem witness_ShiftFormsKeepTheLostBit : (0 : Reg) ≠ vF := by decide

theorem witness_RandomByteIsMasked : (0x7F#8).getLsbD 7 = false := by decide

theorem witness_SkipsOnRegisters : (0x5FFF#16).toNat / 4096 = 5 ∧ (0x9FFF#16).toNat / 4096 = 9 := by decide

theorem witness_SkipsOnKey_pressed :
    let s := (State.reset.setV 1 0x0F).sample (some 0xF)
    ∃ k : Key, s.latch = some k ∧ k.toNat = (s.getV 1).toNat := ⟨0xF, by decide⟩

theorem witness_SkipsOnKey_other :
    let s := (State.reset.setV 1 0x1F).sample (some 0xF)
    ∀ k : Key, s.latch = some k → k.toNat ≠ (s.getV 1).toNat := by decide

theorem witness_SkipsOnKey_none : ∀ k : Key, State.reset.latch = some k → k.toNat ≠ (State.reset.getV 1).toNat := by
  decide

theorem witness_CallPushesOrFaults :
    (State.reset.setStack State.reset.stack 15).sp.val < 16 ∧
    (State.reset.setStack State.reset.stack 16).sp.val = 16 := by decide

theorem witness_ReturnPopsOrFaults :
    0 < (State.reset.setStack State.reset.stack 1).sp.val ∧ State.reset.sp.val = 0 ∧
    (0 : Fin 16).val + 1 = (State.reset.setStack State.reset.stack 1).sp.val := by decide

theorem witness_ReturnAfterCallComesBack :
    State.reset.sp.val < 16 ∧ ∃ t, exec (.call 0x300) State.reset = .next t ∧
      (t.setPc 0x302).sp = t.sp ∧ (t.setPc 0x302).stack = t.stack ∧ (1 : Fin 16).val ≠ State.reset.sp.val :=
  ⟨by decide, _, rfl, rfl, rfl, by decide⟩

theorem witness_BcdDigitsAreStored :
    (State.reset.setI 0xFFD).mem.wf ∧ (State.reset.setI 0xFFD).i.toNat + 2 < 4096 := by decide

theorem witness_BlockStoreWritesRegisters :
    (State.reset.setI 0xFF0).mem.wf ∧ (State.reset.setI 0xFF0).i.toNat + (15 : Reg).val < 4096 ∧
    (15 : Reg) ≤ 15 := by decide

theorem witness_BlockLoadReadsMemory :
    (State.reset.setI 0xFFF).i.toNat + (0 : Reg).val < 4096 ∧ (0 : Reg) ≤ 0 := by decide

theorem witness_MemoryFaultsBeforeEffects :
    4096 ≤ (State.reset.setI 0xFFE).i.toNat + 2 ∧ 4096 ≤ (State.reset.setI 0xFF1).i.toNat + (15 : Reg).val ∧
    4096 ≤ (State.reset.setI 0x1000).i.toNat + (0 : Reg).val ∧
    0 < (2 : Fin 16).val ∧ 4096 ≤ (State.reset.setI 0xFFF).i.toNat + (2 : Fin 16).val - 1 := by decide

/-- FX33 at the top of memory; a later state fetches the word at 0xFFC, of which only the second byte was stored. -/
theorem witness_StoreIsSeenByFetch_bcd :
    let s := State.reset.setI 0xFFD
    s.mem.wf ∧ s.i.toNat + 2 < 4096 ∧ ∃ t, exec (.ldB 3) s = .next t ∧
      (t.setPc 0xFFC).runState = .running ∧ (t.setPc 0xFFC).nextEvent = .cycle ∧
      (t.setPc 0xFFC).pc.toNat + 1 < 4096 ∧
      (t.setPc 0xFFC).mem.byteAt 0xFFC = t.mem.byteAt 0xFFC ∧
      (t.setPc 0xFFC).mem.byteAt (0xFFC + 1) = t.mem.byteAt (0xFFC + 1) ∧
      bcdStored s 3 0xFFC = none ∧ bcdStored s 3 (0xFFC + 1) = some 0 :=
  ⟨by decide, by decide, _, rfl, by decide, by decide, by decide, rfl, rfl, by decide, by decide⟩

/-- FX55 at the top of memory; a later state fetches the word at 0xFFE, both bytes of which were stored. -/
theorem witness_StoreIsSeenByFetch_block :
    let s := (withRegs 0 0x12 1 0x34).setI 0xFFE
    s.mem.wf ∧ s.i.toNat + (1 : Reg).val < 4096 ∧ ∃ t, exec (.ldMemX 1) s = .next t ∧
      (t.setPc 0xFFE).runState = .running ∧ (t.setPc 0xFFE).nextEvent = .cycle ∧
      (t.setPc 0xFFE).pc.toNat + 1 < 4096 ∧
      (t.setPc 0xFFE).mem.byteAt 0xFFE = t.mem.byteAt 0xFFE ∧
      (t.setPc 0xFFE).mem.byteAt (0xFFE + 1) = t.mem.byteAt (0xFFE + 1) ∧
      blockStored s 1 0xFFE = some 0x12 ∧ blockStored s 1 (0xFFE + 1) = some 0x34 :=
  ⟨by decide, by decide, _, rfl, by decide, by decide, by decide, rfl, rfl, by decide, by decide⟩

theorem witness_EqualBytesAreEqualMemories :
    (State.reset.mem.put 0x300 7).wf ∧
    ∀ a, (State.reset.mem.put 0x300 7).byteAt a = ((State.reset.mem.put 0x300 1).put 0x300 7).byteAt a :=
  ⟨by decide, fun _ => rfl⟩

theorem witness_DrawByteTogglesItsPixels :
    (7 : Nat) < 8 ∧ (31 : Fin 32).val = 63 % 32 ∧ (6 : Fin 64).val = (63 + 7) % 64 ∧
    ∀ k : Nat, k < 8 → ¬ ((31 : Fin 32).val = 63 % 32 ∧ (7 : Fin 64).val = (63 + k) % 64) :=
  ⟨by decide, by decide, by decide, by decide⟩

theorem witness_DrawSpriteFlipsCoveredPixels_edge :
    (State.reset.setI 0xFFF).i.toNat + (1 : Fin 16).val ≤ 4096 ∧ (0 : Fin 16).val = 0 := by decide

theorem witness_DrawSpriteFlipsCoveredPixels_covers : spriteCovers (withBytes 0xFFF [0x80]) 0 1 1 0 0 :=
  ⟨0, 0, by decide, by decide, by decide, by decide, by decide⟩

theorem witness_DrawSpriteFlipsCoveredPixels_bare : ¬ spriteCovers State.reset 0 1 0 0 0 := by
  rintro ⟨r, k, hr, -⟩; exact absurd hr (Nat.not_lt_zero r)

theorem witness_Inv : Inv afterKey where
  memory := Memory.wf_nil
  presentation := fun y x => (Display.blank_shown y x).trans (by rw [afterKey, State.reset, Display.blank_pixel]; rfl)
  recordPresent := by decide
  recordShape := by intro q hq; cases hq
  frame := fun y x => by
    show Display.blank.shown y x ≠ _
    rw [Display.blank_shown]; decide

theorem witness_StepKeepsTheInvariant : Inv afterKey ∧ ∃ t, step afterKey = .next t := ⟨witness_Inv, _, rfl⟩

theorem witness_StepKeepsPcBounded : PcBounded { afterKey with pc := 0x10FE } ∧
    ∃ t, step { afterKey with pc := 0x10FE } = .next t := ⟨by unfold PcBounded; decide, _, rfl⟩

theorem witness_SnapshotShowsThePlane :
    Inv { afterKey with display := State.reset.display.setPixel 0 0 true } ∧
    (State.reset.display.setPixel 0 0 true).pixel 0 0 = true := by
  refine ⟨⟨Memory.wf_nil, fun y x => ?_, by decide, (by intro q hq; cases hq), witness_Inv.frame⟩, by decide⟩
  show (Display.blank.setPixel 0 0 true).shown y x = colour ((Display.blank.setPixel 0 0 true).pixel y x)
  rw [Display.shown_setPixel, Display.pixel_setPixel]
  split
  · rfl
  · rw [Display.blank_shown, Display.blank_pixel]; rfl

theorem witness_KeyReadOrRewind :
    (State.reset.sample (some 0xF)).latch = some 0xF ∧ State.reset.latch = none := by decide

theorem witness_ticks :
    let s := { State.reset with pending := [.tick] }
    s.runState = .running ∧ s.nextEvent = .tick := by decide

theorem witness_other_events :
    let s := holding 0xF015
    s.runState = .running ∧ s.nextEvent ≠ .tick ∧ ∃ t, step s = .next t := ⟨by decide, by decide, _, rfl⟩

theorem witness_samples :
    let s := { State.reset with pending := [.sample (some 0xF)] }
    s.runState = .running ∧ s.nextEvent = .sample (some 0xF) := by decide

theorem witness_no_sample :
    let s := holding 0xF30A
    s.runState = .running ∧ (∀ k, s.nextEvent ≠ .sample k) ∧ ∃ t, step s = .next t :=
  ⟨by decide, fun _ => by rw [show (holding 0xF30A).nextEvent = .cycle by decide]; exact Event.noConfusion, _, rfl⟩

theorem witness_StopEndsTheRun :
    let s := { State.reset with pending := [.stop] }
    s.runState = .running ∧ s.nextEvent = .stop := by decide

theorem witness_StepsExactlyWhileRunning :
    State.reset.runState = .running ∧ State.reset.stop.runState = .stopped ∧
    (State.reset.raise ⟨.decode, 0x200, some 0xE000, none⟩).runState = .faulted := by decide

theorem witness_FaultLeavesOnlyItsRecord_fetch :
    (State.reset.setPc 0xFFF).runState = .running ∧
    ∃ t, step (State.reset.setPc 0xFFF) = .next t ∧ t.runState = .faulted := ⟨by decide, _, rfl, rfl⟩

theorem witness_FaultLeavesOnlyItsRecord_execute :
    (holding 0x00EE).runState = .running ∧
    ∃ t, step (holding 0x00EE) = .next t ∧ t.runState = .faulted := ⟨by decide, _, rfl, rfl⟩

theorem witness_ExecuteFaultsExactly :
    State.reset.runState = .running ∧ faultCondition State.reset .ret ∧
    ¬ faultCondition (State.reset.setI 0xFFD) (.ldB 0) := by
  refine ⟨by decide, rfl, ?_⟩
  unfold faultCondition; decide

theorem witness_RegisterWritesAreTheTable :
    (∃ t, exec (.addReg 1 2) State.reset = .next t) ∧ (2 : Reg) ∉ writtenRegisters (.addReg 1 2) :=
  ⟨⟨_, rfl⟩, by decide⟩

theorem witness_OtherStateHasNamedWriters :
    (∃ t, exec (.jp 0x300) State.reset = .next t) ∧ (∀ nnn, Instr.jp 0x300 ≠ .ldI nnn) ∧
    (∀ x, Instr.jp 0x300 ≠ .addI x) ∧ (∀ x, Instr.jp 0x300 ≠ .ldF x) ∧ (∀ nnn, Instr.jp 0x300 ≠ .call nnn) ∧
    Instr.jp 0x300 ≠ .ret ∧ (∀ x, Instr.jp 0x300 ≠ .ldDTX x) ∧ (∀ x, Instr.jp 0x300 ≠ .ldSTX x) ∧
    Instr.jp 0x300 ≠ .cls ∧ (∀ x y n, Instr.jp 0x300 ≠ .drw x y n) ∧ (∀ x, Instr.jp 0x300 ≠ .ldB x) ∧
    (∀ x, Instr.jp 0x300 ≠ .ldMemX x) ∧ (∀ x kk, Instr.jp 0x300 ≠ .rnd x kk) :=
  ⟨⟨_, rfl⟩, by simp⟩

theorem witness_SoundAndFrameAreNotObserved :
    (∀ x, Instr.ldDTX 3 ≠ .ldSTX x) ∧ ∃ x, Instr.ldSTX 3 = .ldSTX x := by
  simp

theorem witness_ResetEntersAt200WithTheFont :
    fetchWord (State.reset.mem.putWord 0x200 0x1200) 0x200 = .ok 0x1200 ∧ decodeWord 0x1200 = .ok (.jp 0x200) := by
  decide

theorem witness_LoadWritesTheProgram :
    State.reset.mem.wf ∧ (List.replicate 3584 (1 : Byte)).length ≤ 3584 ∧
    3584 < (List.replicate 3585 (1 : Byte)).length := by
  simp only [List.length_replicate]; decide

theorem witness_FontGlyphsStandAtReset :
    (∃ t, State.reset.load [0x12, 0x00] = .next t) ∧ (79 : Nat) < 80 := ⟨⟨_, rfl⟩, by decide⟩

theorem witness_PolicyAlternatives :
    (14 : Reg) ≠ vF ∧ (State.reset.setI 0xFF0).i.toNat + (15 : Reg).val < 4096 := by decide

theorem witness_SelfJumpIsFinal :
    (holding 0x1200).runState = .running ∧ (holding 0x1200).nextEvent = .cycle ∧ AtSelfJump (holding 0x1200) :=
  ⟨by decide, by decide, 0x200, by decide, by decide⟩

theorem witness_WaitingForKey : WaitingForKey waiting 3 := ⟨by decide, by decide⟩

theorem witness_WaitingBlocksNothing :
    let s := { waiting with pending := [.cycle, .tick, .sample none] }
    s.runState = .running ∧ WaitingForKey s 3 ∧ (∀ e ∈ [Event.cycle, .tick, .sample none], Idle e) ∧
      s.pending = [.cycle, .tick, .sample none] :=
  ⟨rfl, witness_WaitingForKey, by simp [Idle], rfl⟩

theorem witness_SampledKeyEndsTheWait :
    let s := { waiting with pending := [.tick] ++ [.sample (some 0xF), .cycle] }
    s.runState = .running ∧ WaitingForKey s 3 ∧ (∀ e ∈ [Event.tick], Idle e) ∧
      s.pending = [.tick] ++ [.sample (some 0xF), .cycle] :=
  ⟨rfl, witness_WaitingForKey, by simp [Idle], rfl⟩

/-- A cycle, a tick and an empty sample, in turn, for ever. -/
def roundRobin (n : Nat) : Event :=
  if n % 3 = 0 then .cycle else if n % 3 = 1 then .tick else .sample none

theorem witness_FairTicksExpireTheTimer :
    Fair roundRobin ∧ (∀ n, Idle (roundRobin n)) ∧ waiting.runState = .running ∧ WaitingForKey waiting 3 := by
  refine ⟨fun n => ⟨⟨3 * n, by omega, ?_⟩, ⟨3 * n + 1, by omega, ?_⟩, ⟨3 * n + 2, none, by omega, ?_⟩⟩, fun n => ?_,
    rfl, witness_WaitingForKey⟩
  · have h : 3 * n % 3 = 0 := by omega
    simp [roundRobin, h]
  · have h : (3 * n + 1) % 3 = 1 := by omega
    simp [roundRobin, h]
  · have h : (3 * n + 2) % 3 = 2 := by omega
    simp [roundRobin, h]
  · unfold roundRobin
    split
    · trivial
    · split <;> trivial

end Sys2Proof.Tests
end

section
/-! The jump of spec/40_control.md. -/

namespace Sys2Proof.Proofs.Control

open Sys2Proof.Machine
open Sys2Proof.Safety

/-- The mask that keeps the family nibble fixes the field the decoder branches on (R84). -/
theorem fieldF_of_mask {op k : Word} (h : op &&& 0xF000 = k) : (fieldF op).val = k.toNat / 4096 :=
  (fieldF_val op).trans (family_of_mask h)

theorem rowDecodes_jp : RowDecodes 0xF000 0x1000 (fun op => .jp (fieldNNN op)) := by
  intro op h
  have hfamily : (fieldF op).val = 1 := fieldF_of_mask h
  simp [decodeWord, decodeWith, hfamily]

/-- The frame of an instruction that only moves `pc`. -/
theorem unchanged_setPc (s : State) (w : Word) : Unchanged [.pc] nothing s (s.setPc w) where
  regs r _ := s.setPc_getV w r
  index _ := s.setPc_i w
  pc h := absurd (List.mem_singleton_self _) h
  callStack _ := ⟨s.setPc_stack w, s.setPc_sp w⟩
  delayTimer _ := s.setPc_dt w
  soundTimer _ := s.setPc_st w
  display _ := s.setPc_display w
  latch _ := s.setPc_latch w
  runState _ := s.setPc_runState w
  fault _ := s.setPc_fault w
  frameOut _ := s.setPc_frameOut w
  draws _ := s.setPc_draws w
  pending _ := s.setPc_pending w
  memory a _ := congrArg (·.byteAt a) (s.setPc_mem w)

theorem exec_jp (nnn : Addr12) (s : State) : exec (.jp nnn) s = .next (s.setPc (zext16 nnn)) := rfl

/-- Settles O17: the row decodes by its family nibble, and the execute phase is one write of `pc`. -/
theorem jumpSetsPc : Obligations.JumpSetsPc := by
  refine ⟨rowDecodes_jp, fun nnn s => ⟨s.setPc (zext16 nnn), exec_jp nnn s, ?_, unchanged_setPc s _⟩⟩
  rw [State.setPc_pc, zext16_toNat]

end Sys2Proof.Proofs.Control
end

section
/-! The skips of spec/40_control.md (R120): one law of `skip_if`, and SE and SNE with an immediate over it. -/

namespace Sys2Proof.Proofs.Skips

open Sys2Proof.Machine
open Sys2Proof.Safety
open Sys2Proof.Proofs.Control

/-- Taken or not, a skip is one write of `pc` (R120), so its frame is that of `setPc`. -/
theorem skipIf_eq_setPc (s : State) (c : Bool) : s.skipIf c = s.setPc (if c then s.pc + 2 else s.pc) := by
  cases c with
  | true => rfl
  | false => rfl

theorem skipIf_pc (s : State) (c : Bool) : (s.skipIf c).pc = if c then s.pc + 2 else s.pc := by
  rw [skipIf_eq_setPc, State.setPc_pc]

theorem unchanged_skipIf (s : State) (c : Bool) : Unchanged [.pc] nothing s (s.skipIf c) :=
  skipIf_eq_setPc s c ▸ unchanged_setPc s _

theorem rowDecodes_seImm : RowDecodes 0xF000 0x3000 (fun op => .seImm (fieldX op) (fieldKK op)) := by
  intro op h
  have hfamily : (fieldF op).val = 3 := fieldF_of_mask h
  simp [decodeWord, decodeWith, hfamily]

theorem rowDecodes_sneImm : RowDecodes 0xF000 0x4000 (fun op => .sneImm (fieldX op) (fieldKK op)) := by
  intro op h
  have hfamily : (fieldF op).val = 4 := fieldF_of_mask h
  simp [decodeWord, decodeWith, hfamily]

theorem exec_seImm (x : Reg) (kk : Byte) (s : State) :
    exec (.seImm x kk) s = .next (s.skipIf (s.getV x == kk)) := rfl

theorem exec_sneImm (x : Reg) (kk : Byte) (s : State) :
    exec (.sneImm x kk) s = .next (s.skipIf (s.getV x != kk)) := rfl

/-- Settles O14: each row decodes by its family nibble, and the execute phase is one skip, on the equality for SE and
on the inequality for SNE. -/
theorem skipsOnImmediate : Obligations.SkipsOnImmediate := by
  refine ⟨rowDecodes_seImm, rowDecodes_sneImm,
    fun x kk s => ⟨_, exec_seImm x kk s, ?_, unchanged_skipIf s _⟩,
    fun x kk s => ⟨_, exec_sneImm x kk s, ?_, unchanged_skipIf s _⟩⟩
  · simp only [skipIf_pc, beq_iff_eq]
  · simp only [skipIf_pc, bne_iff_ne, ite_not]

end Sys2Proof.Proofs.Skips
end

section
/-! The register loads of spec/42_alu.md (R142, R144): one frame for a register write, and family 8's decoding. -/

namespace Sys2Proof.Proofs.Alu

open Sys2Proof.Machine
open Sys2Proof.Safety
open Sys2Proof.Proofs.Control

/-- The frame of an instruction that only writes Vx. -/
theorem unchanged_setV (s : State) (x : Reg) (b : Byte) : Unchanged [.reg x] nothing s (s.setV x b) where
  regs r hr := s.getV_setV_ne x r b fun h => hr (h ▸ List.mem_singleton_self _)
  index _ := s.setV_i x b
  pc _ := s.setV_pc x b
  callStack _ := ⟨s.setV_stack x b, s.setV_sp x b⟩
  delayTimer _ := s.setV_dt x b
  soundTimer _ := s.setV_st x b
  display _ := s.setV_display x b
  latch _ := s.setV_latch x b
  runState _ := s.setV_runState x b
  fault _ := s.setV_fault x b
  frameOut _ := s.setV_frameOut x b
  draws _ := s.setV_draws x b
  pending _ := s.setV_pending x b
  memory a _ := congrArg (·.byteAt a) (s.setV_mem x b)

/-- The mask of a family 8 row fixes both fields the decoder branches on (R84). -/
theorem fieldF_fieldN_of_mask {op k : Word} (h : op &&& 0xF00F = k) :
    (fieldF op).val = k.toNat / 4096 ∧ (fieldN op).val = k.toNat % 16 := by
  obtain ⟨hfamily, hnibble⟩ := family_nibble_of_mask h
  exact ⟨(fieldF_val op).trans hfamily, (fieldN_val op).trans hnibble⟩

theorem rowDecodes_ldImm : RowDecodes 0xF000 0x6000 (fun op => .ldImm (fieldX op) (fieldKK op)) := by
  intro op h
  have hfamily : (fieldF op).val = 6 := fieldF_of_mask h
  simp [decodeWord, decodeWith, hfamily]

theorem rowDecodes_ldReg : RowDecodes 0xF00F 0x8000 (fun op => .ldReg (fieldX op) (fieldY op)) := by
  intro op h
  obtain ⟨hfamily, hnibble⟩ : (fieldF op).val = 8 ∧ (fieldN op).val = 0 := fieldF_fieldN_of_mask h
  simp [decodeWord, decodeWith, decodeFamily8, hfamily, hnibble]

theorem exec_ldImm (x : Reg) (kk : Byte) (s : State) : exec (.ldImm x kk) s = .next (s.setV x kk) := rfl

theorem exec_ldReg (x y : Reg) (s : State) : exec (.ldReg x y) s = .next (s.setV x (s.getV y)) := rfl

/-- Settles O7: 6XKK decodes by its family nibble and 8XY0 also by its low nibble, and the execute phase of each is
one write of Vx. -/
theorem loadRegisterForms : Obligations.LoadRegisterForms :=
  ⟨rowDecodes_ldImm, rowDecodes_ldReg,
    fun x kk s => ⟨s.setV x kk, exec_ldImm x kk s, s.getV_setV_self x kk, unchanged_setV s x kk⟩,
    fun x y s => ⟨s.setV x (s.getV y), exec_ldReg x y s, s.getV_setV_self x _, unchanged_setV s x _⟩⟩

end Sys2Proof.Proofs.Alu
end

section
/-! The index register of spec/43_index_memory.md (R171): one frame for a write of I. -/

namespace Sys2Proof.Proofs.Index

open Sys2Proof.Machine
open Sys2Proof.Safety
open Sys2Proof.Proofs.Control

/-- The frame of an instruction that only writes I. -/
theorem unchanged_setI (s : State) (w : Word) : Unchanged [.index] nothing s (s.setI w) where
  regs r _ := s.setI_getV w r
  index h := absurd (List.mem_singleton_self _) h
  pc _ := s.setI_pc w
  callStack _ := ⟨s.setI_stack w, s.setI_sp w⟩
  delayTimer _ := s.setI_dt w
  soundTimer _ := s.setI_st w
  display _ := s.setI_display w
  latch _ := s.setI_latch w
  runState _ := s.setI_runState w
  fault _ := s.setI_fault w
  frameOut _ := s.setI_frameOut w
  draws _ := s.setI_draws w
  pending _ := s.setI_pending w
  memory a _ := congrArg (·.byteAt a) (s.setI_mem w)

theorem rowDecodes_ldI : RowDecodes 0xF000 0xA000 (fun op => .ldI (fieldNNN op)) := by
  intro op h
  have hfamily : (fieldF op).val = 0xA := fieldF_of_mask h
  simp [decodeWord, decodeWith, hfamily]

theorem exec_ldI (nnn : Addr12) (s : State) : exec (.ldI nnn) s = .next (s.setI (zext16 nnn)) := rfl

/-- Settles O23: the row decodes by its family nibble, and the execute phase is one write of I, the 12-bit operand
extended by zeros. -/
theorem loadIndex : Obligations.LoadIndex := by
  refine ⟨rowDecodes_ldI, fun nnn s => ⟨s.setI (zext16 nnn), exec_ldI nnn s, ?_, unchanged_setI s _⟩⟩
  rw [State.setI_i, zext16_toNat]

end Sys2Proof.Proofs.Index
end

section
/-! The display of spec/44_display.md: `draw_byte` pixel by pixel (R191, R192), and CLS (R193). -/

namespace Sys2Proof.Proofs.Screen

open Sys2Proof.Machine
open Sys2Proof.Safety

/-- The pixel of one of the eight columns, as the model's reduced coordinates (R191). -/
theorem eq_rowOf_columnOf {x y k : Nat} {py : Fin 32} {px : Fin 64} :
    py = rowOf y ∧ px = columnOf (x + k) ↔ py.val = y % 32 ∧ px.val = (x + k) % 64 := by
  simp only [Fin.ext_iff, rowOf, columnOf]

/-- Column `k` is covered exactly by a 1 in bit `7 - k`: no other bit of the byte falls on it (R191). -/
theorem byteCovers_column {x y k : Nat} {b : Byte} (hk : k < 8) :
    ByteCovers x y b (rowOf y) (columnOf (x + k)) ↔ b.getLsbD (7 - k) = true := by
  constructor
  · rintro ⟨j, hj, -, hcolumn, hbit⟩
    exact columnOf_inj hk ((mem_bitPositions j).1 hj) hcolumn ▸ hbit
  · exact fun hbit => ⟨k, (mem_bitPositions k).2 hk, rfl, rfl, hbit⟩

/-- In column `k` a drawn byte XORs its bit `7 - k` into the pixel (R191). -/
theorem drawByte_pixel_column (d : Display) (x y : Nat) (b : Byte) {k : Nat} (hk : k < 8) :
    (d.drawByte x y b).1.pixel (rowOf y) (columnOf (x + k)) =
      xor (d.pixel (rowOf y) (columnOf (x + k))) (b.getLsbD (7 - k)) := by
  obtain ⟨hcovered, hbare⟩ := d.drawByte_pixel x y b (rowOf y) (columnOf (x + k))
  rw [byteCovers_column hk] at hcovered hbare
  cases hbit : b.getLsbD (7 - k) with
  | true => rw [hcovered hbit, Bool.xor_true]
  | false => rw [hbare (by simp [hbit]), Bool.xor_false]

/-- A drawn byte recolours the eight pixels it is drawn on, whether or not they change, and no other (R195). -/
theorem drawByte_shown (d : Display) (x y : Nat) (b : Byte) (py : Fin 32) (px : Fin 64) :
    ((∃ k : Nat, k < 8 ∧ py = rowOf y ∧ px = columnOf (x + k)) →
      (d.drawByte x y b).1.shown py px = colour ((d.drawByte x y b).1.pixel py px)) ∧
    ((¬ ∃ k : Nat, k < 8 ∧ py = rowOf y ∧ px = columnOf (x + k)) →
      (d.drawByte x y b).1.shown py px = d.shown py px) := by
  simp only [← mem_bitPositions]
  rw [Display.drawByte, Display.drawBits_shown _ (by decide) (by decide)]
  exact ⟨fun h => if_pos h, fun h => if_neg h⟩

/-- A drawn byte erases exactly when one of its 1-bits falls on a set pixel (R192). -/
theorem drawByte_erased_iff (d : Display) (x y : Nat) (b : Byte) :
    (d.drawByte x y b).2 = true ↔
      ∃ k : Nat, k < 8 ∧ b.getLsbD (7 - k) = true ∧ d.pixel (rowOf y) (columnOf (x + k)) = true := by
  simp only [← mem_bitPositions]
  exact (Display.drawBits_spec _ (by decide) (by decide) d x y b).2

/-- Settles O32: a pixel in column `k` meets bit `7 - k` and no other, a pixel in none of the eight columns is not
covered, and the erase result is the loop's own. -/
theorem drawByteTogglesItsPixels : Obligations.DrawByteTogglesItsPixels := by
  refine fun d x y b py px => ⟨fun k hk hrow hcolumn => ?_, fun houtside => ?_, drawByte_erased_iff d x y b⟩
  · obtain ⟨rfl, rfl⟩ := eq_rowOf_columnOf.2 ⟨hrow, hcolumn⟩
    exact ⟨drawByte_pixel_column d x y b hk, (drawByte_shown d x y b _ _).1 ⟨k, hk, rfl, rfl⟩⟩
  · have hnone : ¬ ∃ k : Nat, k < 8 ∧ py = rowOf y ∧ px = columnOf (x + k) :=
      fun ⟨k, hk, hpixel⟩ => houtside k hk (eq_rowOf_columnOf.1 hpixel)
    have hbare : ¬ ByteCovers x y b py px :=
      fun ⟨k, hk, hrow, hcolumn, _⟩ => hnone ⟨k, (mem_bitPositions k).1 hk, hrow, hcolumn⟩
    exact ⟨(d.drawByte_pixel x y b py px).2 hbare, (drawByte_shown d x y b py px).2 hnone⟩

/-- The frame of an instruction that only writes the display. -/
theorem unchanged_setDisplay (s : State) (d : Display) : Unchanged [.display] nothing s (s.setDisplay d) where
  regs r _ := s.setDisplay_getV d r
  index _ := s.setDisplay_i d
  pc _ := s.setDisplay_pc d
  callStack _ := ⟨s.setDisplay_stack d, s.setDisplay_sp d⟩
  delayTimer _ := s.setDisplay_dt d
  soundTimer _ := s.setDisplay_st d
  display h := absurd (List.mem_singleton_self _) h
  latch _ := s.setDisplay_latch d
  runState _ := s.setDisplay_runState d
  fault _ := s.setDisplay_fault d
  frameOut _ := s.setDisplay_frameOut d
  draws _ := s.setDisplay_draws d
  pending _ := s.setDisplay_pending d
  memory a _ := congrArg (·.byteAt a) (s.setDisplay_mem d)

theorem exec_cls (s : State) : exec .cls s = .next (s.setDisplay Display.blank) := rfl

/-- Settles O31: CLS is one write of the blank display, whose pixels are all off and whose colours are all the
background, the word 0. -/
theorem clearScreenBlanksBothPlanes : Obligations.ClearScreenBlanksBothPlanes := by
  refine fun s => ⟨s.setDisplay Display.blank, exec_cls s, fun y x => ?_, fun y x => ?_, unchanged_setDisplay s _⟩
  · rw [State.setDisplay_display, Display.blank_pixel]
  · rw [State.setDisplay_display, Display.blank_shown]
    exact ⟨rfl, rfl⟩

end Sys2Proof.Proofs.Screen
end

section
/-! Decoding inverted (spec/30_encoding.md R91): a decoded word is the word of its instruction, and family F's rows. -/

namespace Sys2Proof.Proofs.Decoding

open Sys2Proof.Safety

/-! ### A word put together again from its fields, format by format (R82) -/

theorem formatAddr_fields {op : Word} {f : BitVec 4} (hf : (fieldF op).val = f.toNat) :
    formatAddr f (fieldNNN op) = op := by
  apply BitVec.eq_of_toNat_eq
  rw [formatAddr_toNat, fieldNNN_toNat, ← hf, fieldF_val]
  omega

theorem formatRImm_fields {op : Word} {f : BitVec 4} {kk : Byte} (hf : (fieldF op).val = f.toNat)
    (hkk : (fieldKK op).toNat = kk.toNat) : formatRImm f (fieldX op) kk = op := by
  apply BitVec.eq_of_toNat_eq
  rw [formatRImm_toNat, fieldX_val, ← hf, ← hkk, fieldF_val, fieldKK_toNat]
  omega

theorem formatRR_fields {op : Word} {f n : BitVec 4} (hf : (fieldF op).val = f.toNat)
    (hn : (fieldN op).val = n.toNat) : formatRR f (fieldX op) (fieldY op) n = op := by
  apply BitVec.eq_of_toNat_eq
  rw [formatRR_toNat, word_split op, hf, hn]

/-! ### The families that select by more than the family nibble (R84) -/

variable {op : Word} {i : Instr}

theorem encodeWord_decodeFamily0 {policy : SysPolicy} (hf : (fieldF op).val = 0)
    (h : decodeFamily0 policy op = .ok i) : encodeWord i = op := by
  unfold decodeFamily0 at h
  split at h
  · next hcls => cases h; exact hcls.symm
  · split at h
    · next hret => cases h; exact hret.symm
    · cases policy with
      | nop => cases h; exact formatAddr_fields hf
      | fault => cases h

theorem encodeWord_decodeFamily8 (hf : (fieldF op).val = 8) (h : decodeFamily8 op = .ok i) :
    encodeWord i = op := by
  unfold decodeFamily8 at h
  split at h <;> cases h
  all_goals exact formatRR_fields hf ‹_›

theorem encodeWord_decodeFamilyE (hf : (fieldF op).val = 0xE) (h : decodeFamilyE op = .ok i) :
    encodeWord i = op := by
  unfold decodeFamilyE at h
  split at h <;> cases h
  all_goals exact formatRImm_fields hf ‹_›

theorem encodeWord_decodeFamilyF (hf : (fieldF op).val = 0xF) (h : decodeFamilyF op = .ok i) :
    encodeWord i = op := by
  unfold decodeFamilyF at h
  split at h <;> cases h
  all_goals exact formatRImm_fields hf ‹_›

/-- A decoded word is the word of its instruction, but for the rows with an ignored nibble (R88, R93). The case
`h_k` is the decoder's arm for family `k - 1`. -/
theorem encodeWord_of_decodeWord (h : decodeWord op = .ok i) (hse : ∀ x y, i ≠ .seReg x y)
    (hsne : ∀ x y, i ≠ .sneReg x y) : encodeWord i = op := by
  unfold decodeWord decodeWith at h
  split at h
  case h_1 hf => exact encodeWord_decodeFamily0 hf h
  case h_9 hf => exact encodeWord_decodeFamily8 hf h
  case h_15 hf => exact encodeWord_decodeFamilyE hf h
  case h_16 =>
    simp only [imp_false] at *
    have hf : (fieldF op).val = 0xF := by omega
    exact encodeWord_decodeFamilyF hf h
  case h_6 => cases h; exact absurd rfl (hse _ _)
  case h_10 => cases h; exact absurd rfl (hsne _ _)
  case h_14 hf => cases h; exact formatRR_fields hf rfl
  case h_2 hf | h_3 hf | h_11 hf | h_12 hf => cases h; exact formatAddr_fields hf
  case h_4 hf | h_5 hf | h_7 hf | h_8 hf | h_13 hf => cases h; exact formatRImm_fields hf rfl

/-! ### The rows of family F -/

/-- The mask of a family E or F row fixes both fields the decoder branches on (R84). -/
theorem fieldF_fieldKK_of_mask {op k : Word} (h : op &&& 0xF0FF = k) :
    (fieldF op).val = k.toNat / 4096 ∧ (fieldKK op).toNat = k.toNat % 256 := by
  obtain ⟨hfamily, hbyte⟩ := family_byte_of_mask h
  exact ⟨(fieldF_val op).trans hfamily, (fieldKK_toNat op).trans hbyte⟩

/-- A word under a family F mask is decoded by family F. -/
theorem decodeWord_of_maskF {op k : Word} (h : op &&& 0xF0FF = k) (hk : k.toNat / 4096 = 0xF) :
    decodeWord op = decodeFamilyF op := by
  have hfamily := (fieldF_fieldKK_of_mask h).1.trans hk
  simp only [decodeWord, decodeWith, hfamily]

theorem rowDecodes_ldXDT : RowDecodes 0xF0FF 0xF007 (fun op => .ldXDT (fieldX op)) := by
  intro op h
  have hbyte : (fieldKK op).toNat = 0x07 := (fieldF_fieldKK_of_mask h).2
  rw [decodeWord_of_maskF h rfl]
  simp only [decodeFamilyF, hbyte]

theorem rowDecodes_ldDTX : RowDecodes 0xF0FF 0xF015 (fun op => .ldDTX (fieldX op)) := by
  intro op h
  have hbyte : (fieldKK op).toNat = 0x15 := (fieldF_fieldKK_of_mask h).2
  rw [decodeWord_of_maskF h rfl]
  simp only [decodeFamilyF, hbyte]

theorem rowDecodes_ldSTX : RowDecodes 0xF0FF 0xF018 (fun op => .ldSTX (fieldX op)) := by
  intro op h
  have hbyte : (fieldKK op).toNat = 0x18 := (fieldF_fieldKK_of_mask h).2
  rw [decodeWord_of_maskF h rfl]
  simp only [decodeFamilyF, hbyte]

end Sys2Proof.Proofs.Decoding
end

section
/-! The timers and the input latch of spec/45_timers_input.md: the devices an instruction leaves alone, what a cycle and
an event of the scheduler do to them. -/

namespace Sys2Proof.Proofs.Timers

open Sys2Proof.Machine
open Sys2Proof.Safety
open Sys2Proof.Proofs.Alu
open Sys2Proof.Proofs.Decoding

/-! ### What instructions leave of the devices -/

/-- Between `s` and `t` the devices beside the processor stand still: the timers (R31, R32), the latch (R35), the frame
output (R254) and the schedule (log entry 2). -/
structure SameDevices (s t : State) : Prop where
  delay : t.dt = s.dt
  sound : t.st = s.st
  latch : t.latch = s.latch
  frame : t.frameOut = s.frameOut
  schedule : t.pending = s.pending

variable {s t : State}

theorem sameDevices_skipIf (s : State) (c : Bool) : SameDevices s (s.skipIf c) := by
  cases c with
  | true => exact ⟨rfl, rfl, rfl, rfl, rfl⟩
  | false => exact ⟨rfl, rfl, rfl, rfl, rfl⟩

theorem sameDevices_loadRegsFrom (s : State) (k : Nat) (bs : List Byte) :
    SameDevices s (State.loadRegsFrom k bs s) := by
  rw [State.loadRegsFrom_eq]
  exact ⟨rfl, rfl, rfl, rfl, rfl⟩

theorem sameDevices_of_execRet (h : execRet s = .next t) : SameDevices s t := by
  rcases s.pop_cases with ⟨hpop, -⟩ | ⟨_, hpop⟩
  · rw [execRet, hpop] at h; cases h; exact ⟨rfl, rfl, rfl, rfl, rfl⟩
  · rw [execRet, hpop] at h; cases h; exact ⟨rfl, rfl, rfl, rfl, rfl⟩

theorem sameDevices_of_execCall {nnn : Addr12} (h : execCall nnn s = .next t) : SameDevices s t := by
  rcases s.push_cases s.pc with ⟨hpush, -⟩ | ⟨_, hpush⟩
  · rw [execCall, hpush] at h; cases h; exact ⟨rfl, rfl, rfl, rfl, rfl⟩
  · rw [execCall, hpush] at h; cases h; exact ⟨rfl, rfl, rfl, rfl, rfl⟩

theorem sameDevices_of_execDrw {x y : Reg} {n : Fin 16} (h : execDrw x y n s = .next t) : SameDevices s t := by
  unfold execDrw at h
  split at h <;> cases h
  all_goals exact ⟨rfl, rfl, rfl, rfl, rfl⟩

theorem sameDevices_of_execLdXK {x : Reg} (h : execLdXK x s = .next t) : SameDevices s t := by
  unfold execLdXK at h
  split at h <;> cases h
  all_goals exact ⟨rfl, rfl, rfl, rfl, rfl⟩

theorem sameDevices_of_execLdB {x : Reg} (h : execLdB x s = .next t) : SameDevices s t := by
  unfold execLdB at h
  split at h <;> cases h
  all_goals exact ⟨rfl, rfl, rfl, rfl, rfl⟩

theorem sameDevices_of_execLdMemX {x : Reg} (h : execLdMemX x s = .next t) : SameDevices s t := by
  unfold execLdMemX execLdMemXWith at h
  split at h <;> cases h
  all_goals exact ⟨rfl, rfl, rfl, rfl, rfl⟩

theorem sameDevices_of_execLdXMem {x : Reg} (h : execLdXMem x s = .next t) : SameDevices s t := by
  unfold execLdXMem execLdXMemWith at h
  split at h <;> cases h
  · exact ⟨rfl, rfl, rfl, rfl, rfl⟩
  · exact sameDevices_loadRegsFrom s 0 _

theorem exec_ldXDT (x : Reg) (s : State) : exec (.ldXDT x) s = .next (s.setV x s.dt) := rfl

theorem exec_ldDTX (x : Reg) (s : State) : exec (.ldDTX x) s = .next (s.setDelay (s.getV x)) := rfl

theorem exec_ldSTX (x : Reg) (s : State) : exec (.ldSTX x) s = .next (s.setSound (s.getV x)) := rfl

/-- Every instruction but FX15 and FX18, a faulting one included, leaves the devices alone. -/
theorem exec_devices {i : Instr} (h : exec i s = .next t) :
    SameDevices s t ∨ (∃ x, i = .ldDTX x ∧ t = s.setDelay (s.getV x)) ∨
      (∃ x, i = .ldSTX x ∧ t = s.setSound (s.getV x)) := by
  cases i with
  | ldDTX x => exact .inr (.inl ⟨x, rfl, (Host.Outcome.next.inj h).symm⟩)
  | ldSTX x => exact .inr (.inr ⟨x, rfl, (Host.Outcome.next.inj h).symm⟩)
  | ret => exact .inl (sameDevices_of_execRet h)
  | call => exact .inl (sameDevices_of_execCall h)
  | drw => exact .inl (sameDevices_of_execDrw h)
  | ldXK => exact .inl (sameDevices_of_execLdXK h)
  | ldB => exact .inl (sameDevices_of_execLdB h)
  | ldMemX => exact .inl (sameDevices_of_execLdMemX h)
  | ldXMem => exact .inl (sameDevices_of_execLdXMem h)
  | seImm | sneImm | seReg | sneReg | skp | sknp =>
    cases h; exact .inl (sameDevices_skipIf s _)
  | sys | cls | jp | jpV0 | ldImm | addImm | ldReg | orReg | andReg | xorReg | addReg | sub | shr | subn | shl | rnd
  | ldI | ldXDT | addI | ldF =>
    cases h; exact .inl ⟨rfl, rfl, rfl, rfl, rfl⟩

/-! ### What a cycle leaves of the devices -/

/-- A cycle leaves the devices alone unless it has fetched FX15, which writes DT, or FX18, which writes ST. -/
theorem cycle_devices (h : s.cycle = .next t) :
    SameDevices s t ∨
      (∃ x, fetchWord s.mem s.pc.toNat = .ok (encodeWord (.ldDTX x)) ∧
        t = (s.setPc (s.pc + 2)).setDelay (s.getV x)) ∨
      (∃ x, fetchWord s.mem s.pc.toNat = .ok (encodeWord (.ldSTX x)) ∧
        t = (s.setPc (s.pc + 2)).setSound (s.getV x)) := by
  rcases s.cycle_cases with ⟨bad, -, -, hc⟩ | ⟨op, e, -, -, -, hc⟩ | ⟨op, i, hfetch, -, hdecode, hc⟩
  · rw [hc] at h; cases h; exact .inl ⟨rfl, rfl, rfl, rfl, rfl⟩
  · rw [hc] at h; cases h; exact .inl ⟨rfl, rfl, rfl, rfl, rfl⟩
  · rcases exec_devices (hc ▸ h) with ⟨hdt, hst, hlatch, hframe, hpending⟩ | ⟨x, rfl, rfl⟩ | ⟨x, rfl, rfl⟩
    · exact .inl ⟨hdt, hst, hlatch, hframe, hpending⟩
    · have hword : encodeWord (.ldDTX x) = op := encodeWord_of_decodeWord hdecode nofun nofun
      exact .inr (.inl ⟨x, hword ▸ hfetch, rfl⟩)
    · have hword : encodeWord (.ldSTX x) = op := encodeWord_of_decodeWord hdecode nofun nofun
      exact .inr (.inr ⟨x, hword ▸ hfetch, rfl⟩)

/-- No instruction writes the latch, and reading it leaves it (R214). -/
theorem cycle_latch (h : s.cycle = .next t) : t.latch = s.latch := by
  rcases cycle_devices h with hsame | ⟨x, -, rfl⟩ | ⟨x, -, rfl⟩
  · exact hsame.latch
  · rfl
  · rfl

/-! ### The scheduler's events -/

theorem step_tick (hr : s.runState = .running) (he : s.nextEvent = .tick) : step s = .next s.takeEvent.tick := by
  rw [step_running hr, he]; rfl

theorem step_sample {k : Option Key} (hr : s.runState = .running) (he : s.nextEvent = .sample k) :
    step s = .next (s.takeEvent.sample k) := by
  rw [step_running hr, he]; rfl

theorem soundActive_iff (s : State) : s.soundActive = true ↔ s.st ≠ 0 := bne_iff_ne

/-- The frame of a TICK (R244). -/
theorem unchanged_takeEvent_tick (s : State) :
    Unchanged [.delayTimer, .soundTimer, .frameOut, .pending] nothing s s.takeEvent.tick where
  regs _ _ := rfl
  index _ := rfl
  pc _ := rfl
  callStack _ := ⟨rfl, rfl⟩
  delayTimer h := absurd (by simp) h
  soundTimer h := absurd (by simp) h
  display _ := rfl
  latch _ := rfl
  runState _ := rfl
  fault _ := rfl
  frameOut h := absurd (by simp) h
  draws _ := rfl
  pending h := absurd (by simp) h
  memory _ _ := rfl

/-- The frame of a SAMPLE (R245). -/
theorem unchanged_takeEvent_sample (s : State) (k : Option Key) :
    Unchanged [.latch, .pending] nothing s (s.takeEvent.sample k) where
  regs _ _ := rfl
  index _ := rfl
  pc _ := rfl
  callStack _ := ⟨rfl, rfl⟩
  delayTimer _ := rfl
  soundTimer _ := rfl
  display _ := rfl
  latch h := absurd (by simp) h
  runState _ := rfl
  fault _ := rfl
  frameOut _ := rfl
  draws _ := rfl
  pending h := absurd (by simp) h
  memory _ _ := rfl

/-- Settles O38: a TICK decrements both timers; SAMPLE and STOP leave them, and so does a CYCLE, unless it has fetched
FX15 or FX18. -/
theorem timersCountDownOnlyAtTicks : Obligations.TimersCountDownOnlyAtTicks := by
  refine fun s hr => ⟨fun he => ?_, fun hne t h => ?_⟩
  · exact ⟨s.takeEvent.tick, step_tick hr he, decrementTimer_toNat s.dt, decrementTimer_toNat s.st,
      soundActive_iff _, unchanged_takeEvent_tick s⟩
  · obtain ⟨-, ⟨he, hcycle⟩ | ⟨he, -⟩ | ⟨k, -, rfl⟩ | ⟨-, rfl⟩⟩ := step_cases h
    · rcases cycle_devices hcycle with hsame | ⟨x, hfetch, rfl⟩ | ⟨x, hfetch, rfl⟩
      · exact ⟨.inl hsame.delay, .inl hsame.sound⟩
      · exact ⟨.inr ⟨x, he, hfetch, rfl⟩, .inl rfl⟩
      · exact ⟨.inl rfl, .inr ⟨x, he, hfetch, rfl⟩⟩
    · exact absurd he hne
    · exact ⟨.inl rfl, .inl rfl⟩
    · exact ⟨.inl rfl, .inl rfl⟩

/-- Settles O40: a SAMPLE writes the latch; a CYCLE leaves it, whatever it executes, and so do TICK and STOP. -/
theorem onlySamplesWriteTheLatch : Obligations.OnlySamplesWriteTheLatch := by
  refine fun s hr => ⟨fun k he => ?_, fun hne t h => ?_⟩
  · exact ⟨s.takeEvent.sample k, step_sample hr he, rfl, unchanged_takeEvent_sample s k⟩
  · obtain ⟨-, ⟨-, hcycle⟩ | ⟨-, rfl⟩ | ⟨k, he, -⟩ | ⟨-, rfl⟩⟩ := step_cases h
    · exact (cycle_latch hcycle).trans s.takeEvent_latch
    · rfl
    · exact absurd he (hne k)
    · rfl

/-! ### FX07, FX15 and FX18 -/

/-- The frame of an instruction that only writes DT. -/
theorem unchanged_setDelay (s : State) (b : Byte) : Unchanged [.delayTimer] nothing s (s.setDelay b) where
  regs r _ := s.setDelay_getV b r
  index _ := s.setDelay_i b
  pc _ := s.setDelay_pc b
  callStack _ := ⟨s.setDelay_stack b, s.setDelay_sp b⟩
  delayTimer h := absurd (List.mem_singleton_self _) h
  soundTimer _ := s.setDelay_st b
  display _ := s.setDelay_display b
  latch _ := s.setDelay_latch b
  runState _ := s.setDelay_runState b
  fault _ := s.setDelay_fault b
  frameOut _ := s.setDelay_frameOut b
  draws _ := s.setDelay_draws b
  pending _ := s.setDelay_pending b
  memory a _ := congrArg (·.byteAt a) (s.setDelay_mem b)

/-- The frame of an instruction that only writes ST. -/
theorem unchanged_setSound (s : State) (b : Byte) : Unchanged [.soundTimer] nothing s (s.setSound b) where
  regs r _ := s.setSound_getV b r
  index _ := s.setSound_i b
  pc _ := s.setSound_pc b
  callStack _ := ⟨s.setSound_stack b, s.setSound_sp b⟩
  delayTimer _ := s.setSound_dt b
  soundTimer h := absurd (List.mem_singleton_self _) h
  display _ := s.setSound_display b
  latch _ := s.setSound_latch b
  runState _ := s.setSound_runState b
  fault _ := s.setSound_fault b
  frameOut _ := s.setSound_frameOut b
  draws _ := s.setSound_draws b
  pending _ := s.setSound_pending b
  memory a _ := congrArg (·.byteAt a) (s.setSound_mem b)

/-- Settles O36: the rows decode by the family nibble and the low byte, and the execute phase is one write, of Vx, of
DT or of ST. -/
theorem timerInstructions : Obligations.TimerInstructions :=
  ⟨rowDecodes_ldXDT, rowDecodes_ldDTX, rowDecodes_ldSTX, fun x s =>
    ⟨⟨_, exec_ldXDT x s, s.getV_setV_self x s.dt, unchanged_setV s x s.dt⟩,
      ⟨_, exec_ldDTX x s, s.setDelay_dt (s.getV x), unchanged_setDelay s (s.getV x)⟩,
      ⟨_, exec_ldSTX x s, s.setSound_st (s.getV x), soundActive_iff _, unchanged_setSound s (s.getV x)⟩⟩⟩

end Sys2Proof.Proofs.Timers
end

section
/-! The frame output (R254): the colours of a pushed frame (R195), and the steps that leave `frame_out` alone. -/

namespace Sys2Proof.Proofs.FrameOutput

open Sys2Proof.Machine
open Sys2Proof.Safety
open Sys2Proof.Proofs.Timers

variable {s t : State}

/-! ### The words of the colours (R7, R195) -/

theorem fgColor_ne_zero : Config.fgColor ≠ 0 := by
  intro h
  have hword : (Config.fgColorIndex.val + 1) % 2 ^ 32 = 0 := congrArg BitVec.toNat h
  omega

/-- Of the two colours of the colour function, only the background has the word 0. -/
theorem colour_word_eq_zero_iff (on : Bool) : (colour on).word = 0 ↔ on = false := by
  cases on with
  | true => exact iff_of_false fgColor_ne_zero nofun
  | false => exact iff_of_true rfl rfl

/-- Under the invariant the snapshot shows the word 0 exactly where the pixel is off (R194, R195). -/
theorem snapshot_word_eq_zero_iff (h : Inv s) (y : Fin 32) (x : Fin 64) :
    ((s.display.snapshot.get y).get x).word = 0 ↔ s.display.pixel y x = false := by
  have hcolour : (s.display.snapshot.get y).get x = colour (s.display.pixel y x) := h.presentation y x
  rw [hcolour]
  exact colour_word_eq_zero_iff _

/-! ### Who writes `frame_out` -/

/-- No instruction and no fault of a cycle writes `frame_out`. -/
theorem cycle_frameOut (h : s.cycle = .next t) : t.frameOut = s.frameOut := by
  rcases cycle_devices h with hsame | ⟨x, -, rfl⟩ | ⟨x, -, rfl⟩
  · exact hsame.frame
  · rfl
  · rfl

/-- Settles O39: a TICK pushes the snapshot, whose words are the plane's colours; a CYCLE leaves `frame_out`, whatever it
executes, and so do SAMPLE and STOP. -/
theorem framesArePushedOnlyAtTicks : Obligations.FramesArePushedOnlyAtTicks := by
  refine fun s hr => ⟨fun he => ?_, fun hne t h => ?_⟩
  · exact ⟨s.takeEvent.tick, step_tick hr he, rfl, rfl, snapshot_word_eq_zero_iff⟩
  · obtain ⟨-, ⟨-, hcycle⟩ | ⟨he, -⟩ | ⟨k, -, rfl⟩ | ⟨-, rfl⟩⟩ := step_cases h
    · exact (cycle_frameOut hcycle).trans s.takeEvent_frameOut
    · exact absurd he hne
    · rfl
    · rfl

end Sys2Proof.Proofs.FrameOutput
end

section
/-! Reset (spec/70_reset_and_hazards.md R271, R272): the entry point, and the font in place. -/

namespace Sys2Proof.Proofs.Reset

open Sys2Proof.Machine

variable {s : State}

/-- A running machine with a CYCLE next executes the instruction at `pc`, with `pc` advanced past it (R87). -/
theorem step_executes {op : Word} {i : Instr} (hr : s.runState = .running) (he : s.nextEvent = .cycle)
    (hfetch : fetchWord s.mem s.pc.toNat = .ok op) (hdecode : decodeWord op = .ok i) :
    step s = exec i (s.takeEvent.setPc (s.pc + 2)) := by
  rw [step_running hr, he]
  simp only [State.perform, State.cycle, State.takeEvent_mem, State.takeEvent_pc, hfetch, decodeAndExec, hdecode]

theorem reset_byteAt (a : Nat) : State.reset.mem.byteAt a = Config.font.getD a 0 := rfl

/-- Settles O49: `pc` is fixed at 0x200, so the first cycle executes the instruction there, and a memory with no cell
written reads as the font. -/
theorem resetEntersAt200WithTheFont : Obligations.ResetEntersAt200WithTheFont :=
  ⟨rfl, rfl, fun a => reset_byteAt a.val, fun _ _ _ _ hfetch hdecode => step_executes rfl rfl hfetch hdecode⟩

end Sys2Proof.Proofs.Reset
end

section
/-! Encoding and decoding (spec/30_encoding.md R80 to R93): decoding inverts encoding, encoding inverts decoding but for
the ignored nibble, the rows of the opcode table, and the words that are illegal. -/

namespace Sys2Proof.Proofs.Encoding

open Sys2Proof.Safety
open Sys2Proof.Proofs.Control
open Sys2Proof.Proofs.Skips
open Sys2Proof.Proofs.Alu
open Sys2Proof.Proofs.Index
open Sys2Proof.Proofs.Decoding

variable {op k : Word} {i : Instr}

/-! ### The decoder, family by family (R84, R91) -/

theorem decodeWord_of_family0 (hf : (fieldF op).val = 0) : decodeWord op = decodeFamily0 .nop op := by
  simp only [decodeWord, decodeWith, hf]; rfl

theorem decodeWord_of_family8 (hf : (fieldF op).val = 8) : decodeWord op = decodeFamily8 op := by
  simp only [decodeWord, decodeWith, hf]

theorem decodeWord_of_familyE (hf : (fieldF op).val = 0xE) : decodeWord op = decodeFamilyE op := by
  simp only [decodeWord, decodeWith, hf]

theorem decodeWord_of_familyF (hf : (fieldF op).val = 0xF) : decodeWord op = decodeFamilyF op := by
  simp only [decodeWord, decodeWith, hf]

theorem decodeWord_of_family5 (hf : (fieldF op).val = 5) :
    decodeWord op = .ok (.seReg (fieldX op) (fieldY op)) := by
  simp only [decodeWord, decodeWith, hf]

theorem decodeWord_of_family9 (hf : (fieldF op).val = 9) :
    decodeWord op = .ok (.sneReg (fieldX op) (fieldY op)) := by
  simp only [decodeWord, decodeWith, hf]

/-! ### Decoding inverts encoding -/

theorem fieldN_formatRR_regField (f : BitVec 4) (x y : Reg) (n : Fin 16) :
    fieldN (formatRR f x y (regField n)) = n :=
  Fin.ext (fieldN_formatRR f x y (regField n))

/-- SYS comes back only from a word that is not one of its row's two exceptions (R92). -/
theorem decodeWord_encodeWord_sys {nnn : Addr12} (h : (Instr.sys nnn).wellFormed = true) :
    decodeWord (encodeWord (.sys nnn)) = .ok (.sys nnn) := by
  have hfields : fieldNNN (formatAddr 0 nnn) = nnn := fieldNNN_formatAddr 0 nnn
  simp only [Instr.wellFormed, Instr.wellFormedWith, Bool.and_eq_true, bne_iff_ne] at h
  obtain ⟨⟨-, hcls⟩, hret⟩ := h
  have hcls' : formatAddr 0 nnn ≠ 0x00E0#16 := fun he => hcls (by rw [← hfields, he]; rfl)
  have hret' : formatAddr 0 nnn ≠ 0x00EE#16 := fun he => hret (by rw [← hfields, he]; rfl)
  rw [encodeWord, decodeWord_of_family0 (fieldF_formatAddr 0 nnn), decodeFamily0, if_neg hcls', if_neg hret', hfields]

/-- Decoding gives an encoded instruction back: the family nibble selects the format, the low nibble or byte the row of
families 8, E and F, and the fields are the operands. -/
theorem decodeWord_encodeWord (h : i.wellFormed = true) : decodeWord (encodeWord i) = .ok i := by
  cases i with
  | sys => exact decodeWord_encodeWord_sys h
  | cls | ret => rfl
  | jp | call | ldI | jpV0 => simp [encodeWord, decodeWord, decodeWith]
  | seImm | sneImm | ldImm | addImm | rnd => simp [encodeWord, decodeWord, decodeWith]
  | seReg | sneReg => simp [encodeWord, decodeWord, decodeWith]
  | drw => simp [encodeWord, decodeWord, decodeWith, fieldN_formatRR_regField]
  | ldReg | orReg | andReg | xorReg | addReg | sub | shr | subn | shl =>
    simp [encodeWord, decodeWord_of_family8, decodeFamily8]
  | skp | sknp => simp [encodeWord, decodeWord_of_familyE, decodeFamilyE]
  | ldXDT | ldXK | ldDTX | ldSTX | addI | ldF | ldB | ldMemX | ldXMem =>
    simp [encodeWord, decodeWord_of_familyF, decodeFamilyF]

/-- Settles O2: decoding inverts encoding on words, and the two bytes of a word are put together again. -/
theorem decodeInvertsEncode : Obligations.DecodeInvertsEncode := by
  intro i rest h
  have hword := decodeWord_encodeWord h
  refine ⟨hword, ?_⟩
  simp only [encode, List.cons_append, List.nil_append, decodeBytes, wordOfBytes_high_low, hword]

/-! ### Encoding inverts decoding, but for the ignored nibble -/

/-- A decoded word's instruction is well formed: SYS is not decoded from its row's two exceptions (R92). -/
theorem wellFormed_of_decodeWord (h : decodeWord op = .ok i) : i.wellFormed = true := by
  cases i with
  | sys nnn =>
    have hword : encodeWord (.sys nnn) = op := encodeWord_of_decodeWord h nofun nofun
    have hcls : nnn ≠ 0x0E0#12 := by rintro rfl; subst hword; cases h
    have hret : nnn ≠ 0x0EE#12 := by rintro rfl; subst hword; cases h
    simp [Instr.wellFormed, Instr.wellFormedWith, Config.hardware, hcls, hret]
  | _ => rfl

/-- The word of a format RR row with low nibble 0, whatever low nibble was decoded (R88, R93). -/
theorem formatRR_zero_eq_and {f : BitVec 4} (hf : (fieldF op).val = f.toNat) :
    formatRR f (fieldX op) (fieldY op) 0 = op &&& 0xFFF0#16 := by
  have hop : op = formatRR f (fieldX op) (fieldY op) (BitVec.ofFin (fieldN op)) := (formatRR_fields hf rfl).symm
  conv_rhs => rw [hop]
  show _ = (f ++ regField _ ++ regField _ ++ _ : BitVec (4 + 4 + 4 + 4)) &&&
    ((0xF#4 : BitVec 4) ++ 0xF#4 ++ 0xF#4 ++ 0#4)
  rw [BitVec.and_append, BitVec.and_append, BitVec.and_append]
  simp [formatRR]

/-- A word and the word of the instruction it decodes to are of one family. The case `h_k` is the decoder's arm for
family `k - 1`. -/
theorem fieldF_encodeWord_of_decodeWord (h : decodeWord op = .ok i) :
    (fieldF (encodeWord i)).val = (fieldF op).val := by
  unfold decodeWord decodeWith at h
  split at h
  case h_1 hf => rw [encodeWord_decodeFamily0 hf h]
  case h_9 hf => rw [encodeWord_decodeFamily8 hf h]
  case h_15 hf => rw [encodeWord_decodeFamilyE hf h]
  case h_16 =>
    simp only [imp_false] at *
    have hf : (fieldF op).val = 0xF := by omega
    rw [encodeWord_decodeFamilyF hf h]
  case h_2 hf | h_3 hf | h_11 hf | h_12 hf => cases h; exact (fieldF_formatAddr _ _).trans hf.symm
  case h_4 hf | h_5 hf | h_7 hf | h_8 hf | h_13 hf => cases h; exact (fieldF_formatRImm _ _ _).trans hf.symm
  case h_6 hf | h_10 hf | h_14 hf => cases h; exact (fieldF_formatRR _ _ _ _).trans hf.symm

/-- Settles O3: SE and SNE on registers are decoded from families 5 and 9 only, where the encoder clears the low nibble;
every other decoded word is its instruction's word. -/
theorem encodeInvertsDecode : Obligations.EncodeInvertsDecode := by
  refine fun op i h => ⟨wellFormed_of_decodeWord h, ?_⟩
  have hfamily := fieldF_encodeWord_of_decodeWord h
  cases i with
  | seReg x y =>
    have hf : (fieldF op).val = 5 := hfamily.symm.trans (fieldF_formatRR 5 x y 0)
    cases (decodeWord_of_family5 hf).symm.trans h
    exact .inr ⟨.inl ((fieldF_val op).symm.trans hf), formatRR_zero_eq_and hf⟩
  | sneReg x y =>
    have hf : (fieldF op).val = 9 := hfamily.symm.trans (fieldF_formatRR 9 x y 0)
    cases (decodeWord_of_family9 hf).symm.trans h
    exact .inr ⟨.inr ((fieldF_val op).symm.trans hf), formatRR_zero_eq_and hf⟩
  | _ => exact .inl (encodeWord_of_decodeWord h nofun nofun)

/-! ### The illegal words (R86) -/

theorem decodeFamily0_error_iff (policy : SysPolicy) :
    (∃ e, decodeFamily0 policy op = .error e) ↔ policy = .fault ∧ op ≠ 0x00E0#16 ∧ op ≠ 0x00EE#16 := by
  unfold decodeFamily0
  split
  · next hcls => simp [hcls]
  · split
    · next hret => simp [hret]
    · next hcls hret => cases policy <;> simp [hcls, hret]

theorem decodeFamily8_error_iff :
    (∃ e, decodeFamily8 op = .error e) ↔ op.toNat % 16 ∈ [8, 9, 10, 11, 12, 13, 15] := by
  rw [← fieldN_val]
  have hlt := (fieldN op).isLt
  unfold decodeFamily8
  split
  case h_10 =>
    simp only [imp_false] at *
    simp only [Except.error.injEq, exists_eq', List.mem_cons, List.not_mem_nil, or_false, true_iff]
    omega
  all_goals next hn => simp [hn]

theorem decodeFamilyE_error_iff : (∃ e, decodeFamilyE op = .error e) ↔ op.toNat % 256 ∉ [0x9E, 0xA1] := by
  rw [← fieldKK_toNat]
  unfold decodeFamilyE
  split
  case h_3 => simp only [imp_false] at *; simp [*]
  all_goals next hkk => simp [hkk]

theorem decodeFamilyF_error_iff : (∃ e, decodeFamilyF op = .error e) ↔
    op.toNat % 256 ∉ [0x07, 0x0A, 0x15, 0x18, 0x1E, 0x29, 0x33, 0x55, 0x65] := by
  rw [← fieldKK_toNat]
  unfold decodeFamilyF
  split
  case h_10 => simp only [imp_false] at *; simp [*]
  all_goals next hkk => simp [hkk]

/-- Settles O4: only the families 0, 8, E and F have illegal words, each those that its own selector leaves out. -/
theorem illegalWordsAreExactly : Obligations.IllegalWordsAreExactly := by
  intro policy op
  rw [← fieldF_val, ← decodeFamily8_error_iff, ← decodeFamilyE_error_iff, ← decodeFamilyF_error_iff]
  have hzero := decodeFamily0_error_iff (op := op) policy
  unfold decodeWith
  split
  case h_1 hf => simp [hf, hzero]
  case h_16 =>
    simp only [imp_false] at *
    have hf : (fieldF op).val = 0xF := by omega
    simp [hf]
  all_goals next hf => simp [hf]

/-! ### The rows of the opcode table (R84, R85) -/

/-- A row selected by its family nibble alone. -/
theorem rowDecodes_of_family {ins : Word → Instr}
    (h : ∀ op, (fieldF op).val = k.toNat / 4096 → decodeWord op = .ok (ins op)) : RowDecodes 0xF000 k ins :=
  fun op hmask => h op (fieldF_of_mask hmask)

/-- A row of family 8, selected by the low nibble. -/
theorem rowDecodes_of_nibble {ins : Word → Instr} (hk : k.toNat / 4096 = 8)
    (h : ∀ op, (fieldN op).val = k.toNat % 16 → decodeFamily8 op = .ok (ins op)) : RowDecodes 0xF00F k ins := by
  intro op hmask
  obtain ⟨hfamily, hnibble⟩ := fieldF_fieldN_of_mask hmask
  exact (decodeWord_of_family8 (hfamily.trans hk)).trans (h op hnibble)

/-- A row of family E, selected by the low byte. -/
theorem rowDecodes_of_byteE {ins : Word → Instr} (hk : k.toNat / 4096 = 0xE)
    (h : ∀ op, (fieldKK op).toNat = k.toNat % 256 → decodeFamilyE op = .ok (ins op)) : RowDecodes 0xF0FF k ins := by
  intro op hmask
  obtain ⟨hfamily, hbyte⟩ := fieldF_fieldKK_of_mask hmask
  exact (decodeWord_of_familyE (hfamily.trans hk)).trans (h op hbyte)

/-- A row of family F, selected by the low byte. -/
theorem rowDecodes_of_byteF {ins : Word → Instr} (hk : k.toNat / 4096 = 0xF)
    (h : ∀ op, (fieldKK op).toNat = k.toNat % 256 → decodeFamilyF op = .ok (ins op)) : RowDecodes 0xF0FF k ins := by
  intro op hmask
  obtain ⟨hfamily, hbyte⟩ := fieldF_fieldKK_of_mask hmask
  exact (decodeWord_of_familyF (hfamily.trans hk)).trans (h op hbyte)

/-- SYS takes every word of family 0 but its row's two exceptions (R92). -/
theorem decodeWord_sys (hmask : op &&& 0xF000 = 0x0000) (hcls : op ≠ 0x00E0#16) (hret : op ≠ 0x00EE#16) :
    decodeWord op = .ok (.sys (fieldNNN op)) := by
  rw [decodeWord_of_family0 (fieldF_of_mask hmask), decodeFamily0, if_neg hcls, if_neg hret]

theorem rowDecodes_cls : RowDecodes 0xFFFF 0x00E0 (fun _ => .cls) := by
  intro op hmask; rw [word_of_full_mask hmask]; rfl

theorem rowDecodes_ret : RowDecodes 0xFFFF 0x00EE (fun _ => .ret) := by
  intro op hmask; rw [word_of_full_mask hmask]; rfl

theorem rowDecodes_call : RowDecodes 0xF000 0x2000 (fun op => .call (fieldNNN op)) :=
  rowDecodes_of_family fun op hf => by simp [decodeWord, decodeWith, hf]

theorem rowDecodes_seReg : RowDecodes 0xF000 0x5000 (fun op => .seReg (fieldX op) (fieldY op)) :=
  rowDecodes_of_family fun _ hf => decodeWord_of_family5 hf

theorem rowDecodes_addImm : RowDecodes 0xF000 0x7000 (fun op => .addImm (fieldX op) (fieldKK op)) :=
  rowDecodes_of_family fun op hf => by simp [decodeWord, decodeWith, hf]

theorem rowDecodes_orReg : RowDecodes 0xF00F 0x8001 (fun op => .orReg (fieldX op) (fieldY op)) :=
  rowDecodes_of_nibble rfl fun op hn => by simp [decodeFamily8, hn]

theorem rowDecodes_andReg : RowDecodes 0xF00F 0x8002 (fun op => .andReg (fieldX op) (fieldY op)) :=
  rowDecodes_of_nibble rfl fun op hn => by simp [decodeFamily8, hn]

theorem rowDecodes_xorReg : RowDecodes 0xF00F 0x8003 (fun op => .xorReg (fieldX op) (fieldY op)) :=
  rowDecodes_of_nibble rfl fun op hn => by simp [decodeFamily8, hn]

theorem rowDecodes_addReg : RowDecodes 0xF00F 0x8004 (fun op => .addReg (fieldX op) (fieldY op)) :=
  rowDecodes_of_nibble rfl fun op hn => by simp [decodeFamily8, hn]

theorem rowDecodes_sub : RowDecodes 0xF00F 0x8005 (fun op => .sub (fieldX op) (fieldY op)) :=
  rowDecodes_of_nibble rfl fun op hn => by simp [decodeFamily8, hn]

theorem rowDecodes_shr : RowDecodes 0xF00F 0x8006 (fun op => .shr (fieldX op) (fieldY op)) :=
  rowDecodes_of_nibble rfl fun op hn => by simp [decodeFamily8, hn]

theorem rowDecodes_subn : RowDecodes 0xF00F 0x8007 (fun op => .subn (fieldX op) (fieldY op)) :=
  rowDecodes_of_nibble rfl fun op hn => by simp [decodeFamily8, hn]

theorem rowDecodes_shl : RowDecodes 0xF00F 0x800E (fun op => .shl (fieldX op) (fieldY op)) :=
  rowDecodes_of_nibble rfl fun op hn => by simp [decodeFamily8, hn]

theorem rowDecodes_sneReg : RowDecodes 0xF000 0x9000 (fun op => .sneReg (fieldX op) (fieldY op)) :=
  rowDecodes_of_family fun _ hf => decodeWord_of_family9 hf

theorem rowDecodes_jpV0 : RowDecodes 0xF000 0xB000 (fun op => .jpV0 (fieldNNN op)) :=
  rowDecodes_of_family fun op hf => by simp [decodeWord, decodeWith, hf]

theorem rowDecodes_rnd : RowDecodes 0xF000 0xC000 (fun op => .rnd (fieldX op) (fieldKK op)) :=
  rowDecodes_of_family fun op hf => by simp [decodeWord, decodeWith, hf]

theorem rowDecodes_drw : RowDecodes 0xF000 0xD000 (fun op => .drw (fieldX op) (fieldY op) (fieldN op)) :=
  rowDecodes_of_family fun op hf => by simp [decodeWord, decodeWith, hf]

theorem rowDecodes_skp : RowDecodes 0xF0FF 0xE09E (fun op => .skp (fieldX op)) :=
  rowDecodes_of_byteE rfl fun op hkk => by simp [decodeFamilyE, hkk]

theorem rowDecodes_sknp : RowDecodes 0xF0FF 0xE0A1 (fun op => .sknp (fieldX op)) :=
  rowDecodes_of_byteE rfl fun op hkk => by simp [decodeFamilyE, hkk]

theorem rowDecodes_ldXK : RowDecodes 0xF0FF 0xF00A (fun op => .ldXK (fieldX op)) :=
  rowDecodes_of_byteF rfl fun op hkk => by simp [decodeFamilyF, hkk]

theorem rowDecodes_addI : RowDecodes 0xF0FF 0xF01E (fun op => .addI (fieldX op)) :=
  rowDecodes_of_byteF rfl fun op hkk => by simp [decodeFamilyF, hkk]

theorem rowDecodes_ldF : RowDecodes 0xF0FF 0xF029 (fun op => .ldF (fieldX op)) :=
  rowDecodes_of_byteF rfl fun op hkk => by simp [decodeFamilyF, hkk]

theorem rowDecodes_ldB : RowDecodes 0xF0FF 0xF033 (fun op => .ldB (fieldX op)) :=
  rowDecodes_of_byteF rfl fun op hkk => by simp [decodeFamilyF, hkk]

theorem rowDecodes_ldMemX : RowDecodes 0xF0FF 0xF055 (fun op => .ldMemX (fieldX op)) :=
  rowDecodes_of_byteF rfl fun op hkk => by simp [decodeFamilyF, hkk]

theorem rowDecodes_ldXMem : RowDecodes 0xF0FF 0xF065 (fun op => .ldXMem (fieldX op)) :=
  rowDecodes_of_byteF rfl fun op hkk => by simp [decodeFamilyF, hkk]

/-- Settles O6: SYS by its two exceptions, every other row by the fields its mask fixes. -/
theorem opcodeTableRowsDecode : Obligations.OpcodeTableRowsDecode :=
  ⟨fun _ => decodeWord_sys, rowDecodes_cls, rowDecodes_ret, rowDecodes_jp, rowDecodes_call, rowDecodes_seImm,
    rowDecodes_sneImm, rowDecodes_seReg, rowDecodes_ldImm, rowDecodes_addImm, rowDecodes_ldReg, rowDecodes_orReg,
    rowDecodes_andReg, rowDecodes_xorReg, rowDecodes_addReg, rowDecodes_sub, rowDecodes_shr, rowDecodes_subn,
    rowDecodes_shl, rowDecodes_sneReg, rowDecodes_ldI, rowDecodes_jpV0, rowDecodes_rnd, rowDecodes_drw, rowDecodes_skp,
    rowDecodes_sknp, rowDecodes_ldXDT, rowDecodes_ldXK, rowDecodes_ldDTX, rowDecodes_ldSTX, rowDecodes_addI,
    rowDecodes_ldF, rowDecodes_ldB, rowDecodes_ldMemX, rowDecodes_ldXMem⟩

/-- Settles O5: sixteen closed words, each decoded by evaluation. -/
theorem wordsOfTheSpecDecode : Obligations.WordsOfTheSpecDecode := by
  unfold Obligations.WordsOfTheSpecDecode
  decide

end Sys2Proof.Proofs.Encoding
end

section
/-! The execute phase: everything each of the six instructions that can fault does, when an instruction faults and what
the fault leaves (spec/60_exceptions.md R231, R235 to R237), and that every instruction answers a next state. -/

namespace Sys2Proof.Proofs.Execute

open Sys2Proof.Machine
open Sys2Proof.Safety
open Sys2Proof.Proofs.Skips

/-! ### What `pc` and the stack are written with -/

/-- A 12-bit address and a byte add without wrapping. -/
theorem zext16_add_toNat (nnn : Addr12) (b : Byte) :
    (zext16 nnn + b.setWidth 16).toNat = nnn.toNat + b.toNat := by
  have := nnn.isLt
  have := b.isLt
  rw [BitVec.toNat_add, zext16_toNat, BitVec.toNat_setWidth]
  omega

/-- Reading an entry of the call stack after writing one. -/
theorem get_set (e : Vector Word 16) (w : Word) {n : Nat} (h : n < 16) (k : Fin 16) :
    (e.set n w h).get k = if k.val = n then w else e.get k := by
  simp only [Vector.get_eq_getElem, Vector.getElem_set, eq_comm (a := n)]

variable (s : State)

/-! ### The instructions that can fault, each with everything it can do -/

theorem exec_ret_cases :
    (exec .ret s = .next (faultedBy s .ret .stackUnderflow none) ∧ s.sp.val = 0) ∨
    ∃ h : 0 < s.sp.val, exec .ret s =
      .next ((s.setStack s.stack ⟨s.sp.val - 1, by omega⟩).setPc (s.stack[s.sp.val - 1]'(by omega))) := by
  show (execRet s = _ ∧ _) ∨ ∃ h, execRet s = _
  rcases s.pop_cases with ⟨hpop, hsp⟩ | ⟨hsp, hpop⟩
  · exact .inl ⟨by rw [execRet, hpop]; rfl, hsp⟩
  · exact .inr ⟨hsp, by rw [execRet, hpop]⟩

theorem exec_call_cases (nnn : Addr12) :
    (exec (.call nnn) s = .next (faultedBy s (.call nnn) .stackOverflow none) ∧ s.sp.val = 16) ∨
    ∃ h : s.sp.val < 16, exec (.call nnn) s =
      .next ((s.setStack (s.stack.set s.sp.val s.pc h) ⟨s.sp.val + 1, by omega⟩).setPc (zext16 nnn)) := by
  show (execCall nnn s = _ ∧ _) ∨ ∃ h, execCall nnn s = _
  rcases s.push_cases s.pc with ⟨hpush, hsp⟩ | ⟨hsp, hpush⟩
  · exact .inl ⟨by rw [execCall, hpush]; rfl, hsp⟩
  · exact .inr ⟨hsp, by rw [execCall, hpush]⟩

theorem exec_ldB_cases (x : Reg) :
    (exec (.ldB x) s = .next (faultedBy s (.ldB x) .memory (some (max s.i.toNat 4096))) ∧ 4096 ≤ s.i.toNat + 2) ∨
    (exec (.ldB x) s = .next (s.setMem (s.mem.putBytes s.i.toNat (bcdDigits (s.getV x)))) ∧
      s.i.toNat + 2 < 4096) := by
  show (execLdB x s = _ ∧ _) ∨ (execLdB x s = _ ∧ _)
  have hlen : (bcdDigits (s.getV x)).length = 3 := rfl
  rcases s.mem.writeBlock_cases s.i.toNat (bcdDigits (s.getV x)) with ⟨hw, hin⟩ | ⟨hw, hout⟩
  · exact .inr ⟨by rw [execLdB, hw], by omega⟩
  · exact .inl ⟨by rw [execLdB, hw]; rfl, by omega⟩

/-- LD [I], Vx under either value of `LOADSTORE_INCREMENTS_I` (R175). -/
theorem execLdMemXWith_cases (increments : Bool) (x : Reg) :
    (execLdMemXWith increments x s = .next (faultedBy s (.ldMemX x) .memory (some (max s.i.toNat 4096))) ∧
      4096 ≤ s.i.toNat + x.val) ∨
    (execLdMemXWith increments x s =
        .next ((s.setMem (s.mem.putBytes s.i.toNat (s.regsUpTo x))).advanceI increments x) ∧
      s.i.toNat + x.val < 4096) := by
  have hlen := s.regsUpTo_length x
  rcases s.mem.writeBlock_cases s.i.toNat (s.regsUpTo x) with ⟨hw, hin⟩ | ⟨hw, hout⟩
  · exact .inr ⟨by rw [execLdMemXWith, hw], by omega⟩
  · exact .inl ⟨by rw [execLdMemXWith, hw]; rfl, by omega⟩

theorem exec_ldMemX_cases (x : Reg) :
    (exec (.ldMemX x) s = .next (faultedBy s (.ldMemX x) .memory (some (max s.i.toNat 4096))) ∧
      4096 ≤ s.i.toNat + x.val) ∨
    (exec (.ldMemX x) s = .next (s.setMem (s.mem.putBytes s.i.toNat (s.regsUpTo x))) ∧
      s.i.toNat + x.val < 4096) :=
  execLdMemXWith_cases s false x

/-- LD Vx, [I] under either value of `LOADSTORE_INCREMENTS_I` (R176). -/
theorem execLdXMemWith_cases (increments : Bool) (x : Reg) :
    (execLdXMemWith increments x s = .next (faultedBy s (.ldXMem x) .memory (some (max s.i.toNat 4096))) ∧
      4096 ≤ s.i.toNat + x.val) ∨
    (execLdXMemWith increments x s =
        .next ((State.loadRegsFrom 0 (s.mem.bytesFrom s.i.toNat (x.val + 1)) s).advanceI increments x) ∧
      s.i.toNat + x.val < 4096) := by
  rcases s.mem.readBlock_cases s.i.toNat (x.val + 1) with ⟨hr, hin⟩ | ⟨hr, hout⟩
  · exact .inr ⟨by rw [execLdXMemWith, hr], by omega⟩
  · exact .inl ⟨by rw [execLdXMemWith, hr]; rfl, by omega⟩

theorem exec_ldXMem_cases (x : Reg) :
    (exec (.ldXMem x) s = .next (faultedBy s (.ldXMem x) .memory (some (max s.i.toNat 4096))) ∧
      4096 ≤ s.i.toNat + x.val) ∨
    (exec (.ldXMem x) s = .next (State.loadRegsFrom 0 (s.mem.bytesFrom s.i.toNat (x.val + 1)) s) ∧
      s.i.toNat + x.val < 4096) :=
  execLdXMemWith_cases s false x

/-- The planes after the sprite of `DXYN` and whether it erased a pixel (R199). -/
def sprite (x y : Reg) (n : Fin 16) : Display × Bool :=
  s.display.drawRows (s.getV x).toNat (s.getV y).toNat (s.mem.bytesFrom s.i.toNat n.val)

theorem exec_drw_cases (x y : Reg) (n : Fin 16) :
    (exec (.drw x y n) s = .next (faultedBy s (.drw x y n) .memory (some (max s.i.toNat 4096))) ∧
      0 < n.val ∧ 4096 ≤ s.i.toNat + n.val - 1) ∨
    (exec (.drw x y n) s = .next ((s.setDisplay (sprite s x y n).1).setFlag (sprite s x y n).2) ∧
      (n.val = 0 ∨ s.i.toNat + n.val ≤ 4096)) := by
  show (execDrw x y n s = _ ∧ _) ∨ (execDrw x y n s = _ ∧ _)
  rcases s.mem.readBlock_cases s.i.toNat n.val with ⟨hr, hin⟩ | ⟨hr, hpos, hout⟩
  · exact .inr ⟨by rw [execDrw, hr]; rfl, hin⟩
  · exact .inl ⟨by rw [execDrw, hr]; rfl, hpos, by omega⟩

/-! ### The same, by which of the two happens -/

theorem exec_ret_ok (h : 0 < s.sp.val) : exec .ret s =
    .next ((s.setStack s.stack ⟨s.sp.val - 1, by omega⟩).setPc (s.stack[s.sp.val - 1]'(by omega))) :=
  ((exec_ret_cases s).resolve_left fun ⟨_, hsp⟩ => by omega).2

theorem exec_ret_fault (h : s.sp.val = 0) : exec .ret s = .next (faultedBy s .ret .stackUnderflow none) :=
  ((exec_ret_cases s).resolve_right fun ⟨hsp, _⟩ => by omega).1

theorem exec_call_ok (nnn : Addr12) (h : s.sp.val < 16) : exec (.call nnn) s =
    .next ((s.setStack (s.stack.set s.sp.val s.pc h) ⟨s.sp.val + 1, by omega⟩).setPc (zext16 nnn)) :=
  ((exec_call_cases s nnn).resolve_left fun ⟨_, hsp⟩ => by omega).2

theorem exec_call_fault (nnn : Addr12) (h : s.sp.val = 16) :
    exec (.call nnn) s = .next (faultedBy s (.call nnn) .stackOverflow none) :=
  ((exec_call_cases s nnn).resolve_right fun ⟨hsp, _⟩ => by omega).1

theorem exec_ldB_ok (x : Reg) (h : s.i.toNat + 2 < 4096) :
    exec (.ldB x) s = .next (s.setMem (s.mem.putBytes s.i.toNat (bcdDigits (s.getV x)))) :=
  ((exec_ldB_cases s x).resolve_left fun ⟨_, hout⟩ => by omega).1

theorem exec_ldB_fault (x : Reg) (h : 4096 ≤ s.i.toNat + 2) :
    exec (.ldB x) s = .next (faultedBy s (.ldB x) .memory (some (max s.i.toNat 4096))) :=
  ((exec_ldB_cases s x).resolve_right fun ⟨_, hin⟩ => by omega).1

theorem exec_ldMemX_ok (x : Reg) (h : s.i.toNat + x.val < 4096) :
    exec (.ldMemX x) s = .next (s.setMem (s.mem.putBytes s.i.toNat (s.regsUpTo x))) :=
  ((exec_ldMemX_cases s x).resolve_left fun ⟨_, hout⟩ => by omega).1

theorem exec_ldMemX_fault (x : Reg) (h : 4096 ≤ s.i.toNat + x.val) :
    exec (.ldMemX x) s = .next (faultedBy s (.ldMemX x) .memory (some (max s.i.toNat 4096))) :=
  ((exec_ldMemX_cases s x).resolve_right fun ⟨_, hin⟩ => by omega).1

theorem exec_ldXMem_ok (x : Reg) (h : s.i.toNat + x.val < 4096) :
    exec (.ldXMem x) s = .next (State.loadRegsFrom 0 (s.mem.bytesFrom s.i.toNat (x.val + 1)) s) :=
  ((exec_ldXMem_cases s x).resolve_left fun ⟨_, hout⟩ => by omega).1

theorem exec_ldXMem_fault (x : Reg) (h : 4096 ≤ s.i.toNat + x.val) :
    exec (.ldXMem x) s = .next (faultedBy s (.ldXMem x) .memory (some (max s.i.toNat 4096))) :=
  ((exec_ldXMem_cases s x).resolve_right fun ⟨_, hin⟩ => by omega).1

theorem exec_drw_ok (x y : Reg) (n : Fin 16) (h : n.val = 0 ∨ s.i.toNat + n.val ≤ 4096) :
    exec (.drw x y n) s = .next ((s.setDisplay (sprite s x y n).1).setFlag (sprite s x y n).2) :=
  ((exec_drw_cases s x y n).resolve_left fun ⟨_, hpos, hout⟩ => by omega).1

theorem exec_drw_fault (x y : Reg) (n : Fin 16) (hpos : 0 < n.val) (h : 4096 ≤ s.i.toNat + n.val - 1) :
    exec (.drw x y n) s = .next (faultedBy s (.drw x y n) .memory (some (max s.i.toNat 4096))) :=
  ((exec_drw_cases s x y n).resolve_right fun ⟨_, hin⟩ => by omega).1

/-- Settles O28: each of the four checks its whole block before it writes anything. -/
theorem memoryFaultsBeforeEffects : Obligations.MemoryFaultsBeforeEffects :=
  fun s => ⟨exec_ldB_fault s, exec_ldMemX_fault s, exec_ldXMem_fault s, exec_drw_fault s⟩

/-! ### FX0A (R220) -/

theorem exec_ldXK_latched {k : Key} (x : Reg) (h : s.latch = some k) :
    exec (.ldXK x) s = .next (s.setV x (zext8 k)) := by
  show execLdXK x s = _
  rw [execLdXK, State.activeKey, h]

theorem exec_ldXK_none (x : Reg) (h : s.latch = none) : exec (.ldXK x) s = .next (s.setPc (s.pc - 2)) := by
  show execLdXK x s = _
  rw [execLdXK, State.activeKey, h]

theorem exec_ldXK_cases (x : Reg) :
    (∃ k, s.latch = some k ∧ exec (.ldXK x) s = .next (s.setV x (zext8 k))) ∨
    (s.latch = none ∧ exec (.ldXK x) s = .next (s.setPc (s.pc - 2))) := by
  cases h : s.latch with
  | some k => exact .inl ⟨k, rfl, exec_ldXK_latched s x h⟩
  | none => exact .inr ⟨rfl, exec_ldXK_none s x h⟩

/-! ### When the execute phase faults (R231, R237) -/

theorem recordShape_memory {pc : Word} {op : Option Word} {bad : Nat} (h : 4096 ≤ bad) :
    RecordShape ⟨.memory, pc, op, some bad⟩ := by
  simp [RecordShape, h]

theorem recordShape_word {kind : FaultKind} {pc op : Word} (h : kind ≠ .memory) :
    RecordShape ⟨kind, pc, some op, none⟩ := by
  simp [RecordShape, h]

/-- The execute phase of `i` faults: its condition holds, and the next state is `s` with a proper record. -/
def Faults (i : Instr) : Prop :=
  faultCondition s i ∧ ∃ kind addr, exec i s = .next (faultedBy s i kind addr) ∧
    RecordShape ⟨kind, s.pc - 2, some (encodeWord i), addr⟩

/-- The execute phase of `i` completes: its fault condition fails, and the run goes on as it was. -/
def Completes (i : Instr) : Prop :=
  ¬ faultCondition s i ∧ ∃ t, exec i s = .next t ∧ t.runState = s.runState ∧ t.fault = s.fault

/-- Every instruction faults, exactly on its condition, or completes. -/
theorem faults_or_completes (i : Instr) : Faults s i ∨ Completes s i := by
  cases i with
  | ret =>
    rcases exec_ret_cases s with ⟨he, hsp⟩ | ⟨hsp, he⟩
    · exact .inl ⟨hsp, _, _, he, recordShape_word nofun⟩
    · exact .inr ⟨Nat.ne_of_gt hsp, _, he, rfl, rfl⟩
  | call nnn =>
    rcases exec_call_cases s nnn with ⟨he, hsp⟩ | ⟨hsp, he⟩
    · exact .inl ⟨hsp, _, _, he, recordShape_word nofun⟩
    · exact .inr ⟨Nat.ne_of_lt hsp, _, he, rfl, rfl⟩
  | ldB x =>
    rcases exec_ldB_cases s x with ⟨he, hout⟩ | ⟨he, hin⟩
    · exact .inl ⟨hout, _, _, he, recordShape_memory (le_max_right _ _)⟩
    · exact .inr ⟨Nat.not_le_of_lt hin, _, he, rfl, rfl⟩
  | ldMemX x =>
    rcases exec_ldMemX_cases s x with ⟨he, hout⟩ | ⟨he, hin⟩
    · exact .inl ⟨hout, _, _, he, recordShape_memory (le_max_right _ _)⟩
    · exact .inr ⟨Nat.not_le_of_lt hin, _, he, rfl, rfl⟩
  | ldXMem x =>
    rcases exec_ldXMem_cases s x with ⟨he, hout⟩ | ⟨he, hin⟩
    · exact .inl ⟨hout, _, _, he, recordShape_memory (le_max_right _ _)⟩
    · exact .inr ⟨Nat.not_le_of_lt hin, _, he, by rw [State.loadRegsFrom_eq], by rw [State.loadRegsFrom_eq]⟩
  | drw x y n =>
    rcases exec_drw_cases s x y n with ⟨he, hout⟩ | ⟨he, hin⟩
    · exact .inl ⟨hout, _, _, he, recordShape_memory (le_max_right _ _)⟩
    · exact .inr ⟨fun hout => by obtain ⟨hpos, hout⟩ := hout; omega, _, he, rfl, rfl⟩
  | ldXK x =>
    rcases exec_ldXK_cases s x with ⟨k, -, he⟩ | ⟨-, he⟩
    · exact .inr ⟨id, _, he, rfl, rfl⟩
    · exact .inr ⟨id, _, he, rfl, rfl⟩
  | seImm | sneImm | seReg | sneReg | skp | sknp =>
    exact .inr ⟨id, _, rfl, by rw [skipIf_eq_setPc, State.setPc_runState], by rw [skipIf_eq_setPc, State.setPc_fault]⟩
  | sys | cls | jp | jpV0 | ldImm | addImm | ldReg | orReg | andReg | xorReg | addReg | sub | shr | subn | shl | rnd
  | ldI | ldXDT | ldDTX | ldSTX | addI | ldF =>
    exact .inr ⟨id, _, rfl, rfl, rfl⟩

/-- Settles O45: a fault, too, is a next state. -/
theorem everyInstructionAnswersNext : Obligations.EveryInstructionAnswersNext := by
  intro i s
  rcases faults_or_completes s i with ⟨-, kind, addr, he, -⟩ | ⟨-, t, he, -⟩
  · exact ⟨_, he⟩
  · exact ⟨t, he⟩

/-- Settles O44: an instruction that faults does so on its condition, and one that completes leaves the run running. -/
theorem executeFaultsExactly : Obligations.ExecuteFaultsExactly := by
  intro i s hr
  rcases faults_or_completes s i with ⟨hc, kind, addr, he, -⟩ | ⟨hc, t, he, hrun, -⟩
  · exact iff_of_true ⟨_, he, rfl⟩ hc
  · refine iff_of_false (fun ⟨u, hu, hfaulted⟩ => ?_) hc
    cases he.symm.trans hu
    rw [hrun, hr] at hfaulted
    cases hfaulted

variable {s} {t : State}

/-- From a running state, an execute phase that ends faulted has met its condition and left only its record (R235,
R236). -/
theorem eq_faultedBy_of_exec {i : Instr} (hr : s.runState = .running) (h : exec i s = .next t)
    (hf : t.runState = .faulted) :
    faultCondition s i ∧ ∃ kind addr, t = faultedBy s i kind addr ∧
      RecordShape ⟨kind, s.pc - 2, some (encodeWord i), addr⟩ := by
  rcases faults_or_completes s i with ⟨hc, kind, addr, he, hshape⟩ | ⟨-, u, he, hrun, -⟩
  · exact ⟨hc, kind, addr, Host.Outcome.next.inj (h.symm.trans he), hshape⟩
  · cases h.symm.trans he
    rw [hrun, hr] at hf
    cases hf

end Sys2Proof.Proofs.Execute
end

section
/-! Rules over all instructions: who writes which register (spec/10_state.md R22), who writes the rest of the state, and
that ST and the frame output are never read (R32, R239). -/

namespace Sys2Proof.Proofs.AllInstructions

open Sys2Proof.Machine
open Sys2Proof.Safety
open Sys2Proof.Proofs.Skips
open Sys2Proof.Proofs.Execute

variable {s t : State}

/-! ### The register table (R22) -/

theorem getV_setResultAndFlag_of_notMem (s : State) {x r : Reg} (b : Byte) (c : Bool) (h : r ∉ [x, vF]) :
    (s.setResultAndFlag x b c).getV r = s.getV r := by
  simp only [List.mem_cons, List.not_mem_nil, or_false, not_or] at h
  rw [State.setResultAndFlag_getV, if_neg h.2, if_neg h.1]

theorem getV_loadRegsFrom_of_lt (s : State) {x r : Reg} (m : Memory) (h : x < r) :
    (State.loadRegsFrom 0 (m.bytesFrom s.i.toNat (x.val + 1)) s).getV r = s.getV r := by
  have hout : ¬ (0 ≤ r.val ∧ r.val < 0 + (m.bytesFrom s.i.toNat (x.val + 1)).length) := by
    have := Fin.lt_def.1 h
    rw [Memory.bytesFrom_length]; omega
  rw [State.loadRegsFrom_getV, dif_neg hout]

/-- Settles O46: every instruction's register writes are those of its row; a fault writes none. -/
theorem registerWritesAreTheTable : Obligations.RegisterWritesAreTheTable := by
  intro i s t r h hr
  cases i with
  | ldImm | addImm | ldReg | orReg | andReg | xorReg | rnd | ldXDT =>
    cases h; exact State.getV_setV_ne _ _ _ _ fun he => hr (he ▸ List.mem_singleton_self _)
  | addReg | sub | subn | shr | shl => cases h; exact getV_setResultAndFlag_of_notMem s _ _ hr
  | ldXK x =>
    rcases exec_ldXK_cases s x with ⟨k, -, he⟩ | ⟨-, he⟩
    · cases he.symm.trans h; exact s.getV_setV_ne _ _ _ fun he => hr (he ▸ List.mem_singleton_self _)
    · cases he.symm.trans h; rfl
  | drw x y n =>
    rcases exec_drw_cases s x y n with ⟨he, -⟩ | ⟨he, -⟩
    · cases he.symm.trans h; rfl
    · cases he.symm.trans h; exact State.getV_setV_ne _ _ _ _ fun he => hr (he ▸ List.mem_singleton_self _)
  | ldXMem x =>
    rcases exec_ldXMem_cases s x with ⟨he, -⟩ | ⟨he, -⟩
    · cases he.symm.trans h; rfl
    · have hlt : x < r := by simpa [writtenRegisters] using hr
      cases he.symm.trans h; exact getV_loadRegsFrom_of_lt s s.mem hlt
  | ret => obtain ⟨he, -⟩ | ⟨_, he⟩ := exec_ret_cases s <;> (cases he.symm.trans h; rfl)
  | call nnn => obtain ⟨he, -⟩ | ⟨_, he⟩ := exec_call_cases s nnn <;> (cases he.symm.trans h; rfl)
  | ldB x => obtain ⟨he, -⟩ | ⟨he, -⟩ := exec_ldB_cases s x <;> (cases he.symm.trans h; rfl)
  | ldMemX x => obtain ⟨he, -⟩ | ⟨he, -⟩ := exec_ldMemX_cases s x <;> (cases he.symm.trans h; rfl)
  | seImm | sneImm | seReg | sneReg | skp | sknp => cases h; rw [skipIf_eq_setPc, State.setPc_getV]
  | sys | cls | jp | jpV0 | ldI | addI | ldF | ldDTX | ldSTX => cases h; rfl

/-! ### The rest of the state -/

/-- Settles O47: instruction by instruction; what an instruction writes is left to the clause that names it, and a fault
writes none of these parts. -/
theorem otherStateHasNamedWriters : Obligations.OtherStateHasNamedWriters := by
  intro i s t h
  cases i with
  | seImm | sneImm | seReg | sneReg | skp | sknp => cases h; simp [skipIf_eq_setPc]
  | addReg | sub | shr | subn | shl => cases h; simp [State.setResultAndFlag, State.setFlag]
  | rnd => cases h; simp [State.drawRandom]
  | sys | cls | jp | jpV0 | ldImm | addImm | ldReg | orReg | andReg | xorReg | ldI | ldXDT | ldDTX | ldSTX | addI
  | ldF => cases h; simp
  | ret => obtain ⟨he, -⟩ | ⟨_, he⟩ := exec_ret_cases s <;> (cases he.symm.trans h; simp [faultedBy])
  | call nnn => obtain ⟨he, -⟩ | ⟨_, he⟩ := exec_call_cases s nnn <;> (cases he.symm.trans h; simp [faultedBy])
  | ldB x => obtain ⟨he, -⟩ | ⟨he, -⟩ := exec_ldB_cases s x <;> (cases he.symm.trans h; simp [faultedBy])
  | ldMemX x => obtain ⟨he, -⟩ | ⟨he, -⟩ := exec_ldMemX_cases s x <;> (cases he.symm.trans h; simp [faultedBy])
  | ldXMem x =>
    rcases exec_ldXMem_cases s x with ⟨he, -⟩ | ⟨he, -⟩
    · cases he.symm.trans h; simp [faultedBy]
    · cases he.symm.trans h; rw [State.loadRegsFrom_eq]; simp
  | ldXK x => obtain ⟨k, -, he⟩ | ⟨-, he⟩ := exec_ldXK_cases s x <;> (cases he.symm.trans h; simp)
  | drw x y n =>
    obtain ⟨he, -⟩ | ⟨he, -⟩ := exec_drw_cases s x y n <;>
      (cases he.symm.trans h; simp [faultedBy, State.setFlag])

/-! ### ST and the frame output are not read -/

/-- A block load neither reads nor writes ST and the frame output. -/
theorem loadRegsFrom_sound_frame (st : Byte) (frame : Frame) (k : Nat) (bs : List Byte) (s : State) :
    State.loadRegsFrom k bs { s with st := st, frameOut := frame } =
      { State.loadRegsFrom k bs s with st := st, frameOut := frame } := by
  induction bs generalizing k s with
  | nil => rfl
  | cons b bs ih =>
    by_cases hk : k < 16
    · simp only [State.loadRegsFrom, dif_pos hk]; exact ih (k + 1) (s.setV ⟨k, hk⟩ b)
    · simp only [State.loadRegsFrom, dif_neg hk]; exact ih (k + 1) s

/-- Settles O48: every instruction computes its next state from the other parts alone, and so is the choice made where it
can fault or wait. -/
theorem soundAndFrameAreNotObserved : Obligations.SoundAndFrameAreNotObserved := by
  refine fun i s st frame => ⟨fun hne => ?_, ?_⟩
  · cases i with
    | ldSTX x => exact absurd rfl (hne x)
    | sys | cls | jp | jpV0 | ldImm | addImm | ldReg | orReg | andReg | xorReg | addReg | sub | shr | subn | shl | rnd
    | ldI | ldXDT | ldDTX | addI | ldF => rfl
    | seImm | sneImm | seReg | sneReg | skp | sknp =>
      simp only [exec, execSeImm, execSneImm, execSeReg, execSneReg, execSkp, execSknp, skipIf_eq_setPc]; rfl
    | ret =>
      rcases exec_ret_cases s with ⟨he, hsp⟩ | ⟨hsp, he⟩
      · rw [he]; exact exec_ret_fault _ hsp
      · rw [he]; exact exec_ret_ok { s with st := st, frameOut := frame } hsp
    | call nnn =>
      rcases exec_call_cases s nnn with ⟨he, hsp⟩ | ⟨hsp, he⟩
      · rw [he]; exact exec_call_fault _ nnn hsp
      · rw [he]; exact exec_call_ok { s with st := st, frameOut := frame } nnn hsp
    | drw x y n =>
      rcases exec_drw_cases s x y n with ⟨he, hpos, hout⟩ | ⟨he, hin⟩
      · rw [he]; exact exec_drw_fault _ x y n hpos hout
      · rw [he]; exact exec_drw_ok _ x y n hin
    | ldXK x =>
      rcases exec_ldXK_cases s x with ⟨k, hlatch, he⟩ | ⟨hlatch, he⟩
      · rw [he]; exact exec_ldXK_latched _ x hlatch
      · rw [he]; exact exec_ldXK_none _ x hlatch
    | ldB x =>
      rcases exec_ldB_cases s x with ⟨he, hout⟩ | ⟨he, hin⟩
      · rw [he]; exact exec_ldB_fault _ x hout
      · rw [he]; exact exec_ldB_ok _ x hin
    | ldMemX x =>
      rcases exec_ldMemX_cases s x with ⟨he, hout⟩ | ⟨he, hin⟩
      · rw [he]; exact exec_ldMemX_fault _ x hout
      · rw [he]; exact exec_ldMemX_ok _ x hin
    | ldXMem x =>
      rcases exec_ldXMem_cases s x with ⟨he, hout⟩ | ⟨he, hin⟩
      · rw [he]; exact exec_ldXMem_fault _ x hout
      · rw [he]
        exact (exec_ldXMem_ok { s with st := st, frameOut := frame } x hin).trans
          (congrArg Host.Outcome.next (loadRegsFrom_sound_frame st frame 0 _ s))
  · rintro ⟨x, rfl⟩; rfl

end Sys2Proof.Proofs.AllInstructions
end

section
/-! Steps: the fetch, the cycle and its faults (spec/30_encoding.md R87, spec/60_exceptions.md R230 to R236), and how a
run goes on or ends (R251, R252, R260). -/

namespace Sys2Proof.Proofs.Steps

open Sys2Proof.Machine
open Sys2Proof.Safety
open Sys2Proof.Proofs.Decoding
open Sys2Proof.Proofs.Reset
open Sys2Proof.Proofs.Encoding
open Sys2Proof.Proofs.Execute

variable {s t : State}

/-! ### The cycle -/

theorem fetchWord_outside {m : Memory} {a : Nat} (h : 4096 ≤ a) : fetchWord m a = .error a := by
  rcases fetchWord_cases m a with ⟨-, hin⟩ | ⟨hf, -⟩ | ⟨-, hsplit⟩
  · omega
  · exact hf
  · omega

theorem fetchWord_split {m : Memory} {a : Nat} (h : a = 4095) : fetchWord m a = .error 4096 := by
  subst h; rfl

/-- A cycle whose fetch faults raises and leaves `pc` (R87, R235). -/
theorem step_fetchFault {bad : Nat} (hr : s.runState = .running) (he : s.nextEvent = .cycle)
    (hf : fetchWord s.mem s.pc.toNat = .error bad) :
    step s = .next (s.takeEvent.raise ⟨.memory, s.pc, none, some bad⟩) := by
  rw [step_running hr, he]
  simp only [State.perform, State.cycle, State.takeEvent_mem, State.takeEvent_pc, hf]

/-- Settles O1: an address out of range faults the fetch; otherwise the word of the two bytes is decoded, and executed
when it is legal. -/
theorem stepRunsTheFetchedWord : Obligations.StepRunsTheFetchedWord := by
  refine fun s hr he => ⟨fun hout => step_fetchFault hr he (fetchWord_outside hout),
    fun hsplit => step_fetchFault hr he (fetchWord_split hsplit), fun hin op hop => ?_⟩
  have hword : wordOfBytes (s.mem.byteAt s.pc.toNat) (s.mem.byteAt (s.pc.toNat + 1)) = op :=
    BitVec.eq_of_toNat_eq ((wordOfBytes_toNat _ _).trans hop.symm)
  have hstep := step_fetched hr he hin
  rw [hword, decodeAndExec] at hstep
  constructor
  · intro i hdecode; rw [hdecode] at hstep; exact hstep
  · intro e hdecode; rw [hdecode] at hstep; exact hstep

/-! ### Steps exactly while running -/

theorem cycle_answers_next (s : State) : ∃ t, s.cycle = .next t := by
  rcases s.cycle_cases with ⟨bad, -, -, hc⟩ | ⟨op, e, -, -, -, hc⟩ | ⟨op, i, -, -, -, hc⟩
  · exact ⟨_, hc⟩
  · exact ⟨_, hc⟩
  · obtain ⟨t, ht⟩ := everyInstructionAnswersNext i (s.setPc (s.pc + 2))
    exact ⟨t, hc.trans ht⟩

theorem perform_answers_next (s : State) (e : Event) : ∃ t, s.perform e = .next t := by
  cases e with
  | cycle => exact cycle_answers_next s
  | tick | sample | stop => exact ⟨_, rfl⟩

/-- Settles O42: every event of a running machine answers a next state, and the other two states of the scheduler answer
none. -/
theorem stepsExactlyWhileRunning : Obligations.StepsExactlyWhileRunning := by
  refine fun s => ⟨⟨fun hr => ?_, fun ⟨t, h⟩ => (step_cases h).1⟩, step_stopped, step_faulted⟩
  rw [step_running hr]
  exact perform_answers_next s.takeEvent s.nextEvent

/-! ### STOP and the end convention -/

/-- The frame of a STOP (R251). -/
theorem unchanged_takeEvent_stop (s : State) : Unchanged [.runState, .pending] nothing s s.takeEvent.stop where
  regs _ _ := rfl
  index _ := rfl
  pc _ := rfl
  callStack _ := ⟨rfl, rfl⟩
  delayTimer _ := rfl
  soundTimer _ := rfl
  display _ := rfl
  latch _ := rfl
  runState h := absurd (by simp) h
  fault _ := rfl
  frameOut _ := rfl
  draws _ := rfl
  pending h := absurd (by simp) h
  memory _ _ := rfl

/-- Settles O41: STOP writes the scheduler's state, in which there is no step. -/
theorem stopEndsTheRun : Obligations.StopEndsTheRun := by
  intro s hr he
  have hstep : step s = .next s.takeEvent.stop := by rw [step_running hr, he]; rfl
  exact ⟨_, hstep, rfl, unchanged_takeEvent_stop s, step_stopped rfl⟩

/-- Settles O56: the jump writes the `pc` that was there before the cycle advanced it. -/
theorem selfJumpIsFinal : Obligations.SelfJumpIsFinal := by
  rintro s hr he ⟨nnn, hpc, hfetch⟩
  rw [step_executes hr he hfetch (decodeWord_encodeWord rfl), Control.exec_jp, ← hpc]
  rfl

/-! ### What a fault leaves -/

/-- An instruction that can fault has no ignored nibble, so its record holds the fetched word (R41, R93). -/
theorem encodeWord_of_faultCondition {op : Word} {i : Instr} (hd : decodeWord op = .ok i) (hc : faultCondition s i) :
    encodeWord i = op :=
  encodeWord_of_decodeWord hd (by rintro x y rfl; exact hc) (by rintro x y rfl; exact hc)

/-- Settles O43: a step that ends faulted is a CYCLE, whose fetch, decode or execute phase raised. -/
theorem faultLeavesOnlyItsRecord : Obligations.FaultLeavesOnlyItsRecord := by
  intro s t hr h hf
  obtain ⟨-, ⟨-, hcycle⟩ | ⟨-, rfl⟩ | ⟨k, -, rfl⟩ | ⟨-, rfl⟩⟩ := step_cases h
  · rcases s.takeEvent.cycle_cases with ⟨bad, hfetch, hbad, hc⟩ | ⟨op, e, hfetch, -, -, hc⟩ | ⟨op, i, hfetch, -, hd, hc⟩
    · cases hc.symm.trans hcycle
      exact ⟨_, rfl, recordShape_memory hbad, .inl ⟨bad, hfetch, rfl, rfl, rfl⟩⟩
    · cases hc.symm.trans hcycle
      exact ⟨⟨.decode, s.pc, some op, none⟩, rfl, recordShape_word nofun, .inr ⟨op, hfetch, rfl, rfl⟩⟩
    · obtain ⟨hcond, kind, addr, rfl, hshape⟩ :=
        eq_faultedBy_of_exec (s := s.takeEvent.setPc (s.pc + 2)) hr (hc.symm.trans hcycle) hf
      have hpc : s.pc + 2 - 2 = s.pc := BitVec.add_sub_cancel s.pc 2
      rw [State.setPc_pc, hpc, encodeWord_of_faultCondition hd hcond] at hshape
      refine ⟨_, rfl, hshape, .inr ⟨op, hfetch, rfl, ?_⟩⟩
      simp only [faultedBy, State.setPc_pc, hpc, encodeWord_of_faultCondition hd hcond]
      rfl
  · cases hr.symm.trans hf
  · cases hr.symm.trans hf
  · cases hf

end Sys2Proof.Proofs.Steps
end

section
/-! The invariants of every run: canonical memory, planes in agreement and a proper fault record (spec/10_state.md R34,
R41, R195, R197), and the bounds of `pc` and of the return addresses (R25); both hold at reset (R42). -/

namespace Sys2Proof.Proofs.Invariants

open Sys2Proof.Machine
open Sys2Proof.Safety
open Sys2Proof.Proofs.Skips
open Sys2Proof.Proofs.AllInstructions
open Sys2Proof.Proofs.Execute

variable {s t : State} {i : Instr}

/-! ### What single writers leave, read off the table of writers -/

theorem exec_mem_of_ne (h : exec i s = .next t) (hB : ∀ x, i ≠ .ldB x) (hBlock : ∀ x, i ≠ .ldMemX x) :
    t.mem = s.mem := by
  obtain ⟨-, -, -, -, -, -, -, -, hmem, -⟩ := otherStateHasNamedWriters i s t h
  exact hmem hB hBlock

theorem exec_display_of_ne (h : exec i s = .next t) (hcls : i ≠ .cls) (hdrw : ∀ x y n, i ≠ .drw x y n) :
    t.display = s.display := by
  obtain ⟨-, -, -, -, -, -, -, hdisplay, -, -⟩ := otherStateHasNamedWriters i s t h
  exact hdisplay hcls hdrw

theorem exec_stack_of_ne (h : exec i s = .next t) (hcall : ∀ nnn, i ≠ .call nnn) (hret : i ≠ .ret) :
    t.stack = s.stack ∧ t.sp = s.sp := by
  obtain ⟨-, -, -, -, hstack, -, -, -, -, -⟩ := otherStateHasNamedWriters i s t h
  exact hstack hcall hret

theorem exec_frameOut (h : exec i s = .next t) : t.frameOut = s.frameOut :=
  (otherStateHasNamedWriters i s t h).2.1

/-! ### The execute phase keeps the invariant, part by part -/

/-- The presentation plane shows the colours of the logical plane (R34, R195). -/
def PlanesAgree (d : Display) : Prop := ∀ y x, d.shown y x = colour (d.pixel y x)

theorem planesAgree_blank : PlanesAgree Display.blank := fun y x => by
  rw [Display.blank_shown, Display.blank_pixel]; rfl

theorem exec_mem_wf (hw : s.mem.wf) (h : exec i s = .next t) : t.mem.wf := by
  cases i with
  | ldB x =>
    rcases exec_ldB_cases s x with ⟨he, -⟩ | ⟨he, hin⟩
    · cases he.symm.trans h; exact hw
    · have hend : s.i.toNat + (bcdDigits (s.getV x)).length ≤ 4096 := hin
      cases he.symm.trans h; exact Memory.wf_putBytes hw _ _ hend
  | ldMemX x =>
    rcases exec_ldMemX_cases s x with ⟨he, -⟩ | ⟨he, hin⟩
    · cases he.symm.trans h; exact hw
    · have hend : s.i.toNat + (s.regsUpTo x).length ≤ 4096 := by rw [State.regsUpTo_length]; exact hin
      cases he.symm.trans h; exact Memory.wf_putBytes hw _ _ hend
  | _ => rw [exec_mem_of_ne h nofun nofun]; exact hw

theorem exec_planesAgree (hp : PlanesAgree s.display) (h : exec i s = .next t) : PlanesAgree t.display := by
  cases i with
  | cls => cases h; exact planesAgree_blank
  | drw x y n =>
    rcases exec_drw_cases s x y n with ⟨he, -⟩ | ⟨he, -⟩
    · cases he.symm.trans h; exact hp
    · cases he.symm.trans h; exact Display.drawRows_presentation _ _ _ _ hp
  | _ => rw [exec_display_of_ne h nofun nofun]; exact hp

/-- A fault record exactly when the run is faulted, and properly filled (R41). -/
def RecordProper (s : State) : Prop :=
  (s.runState = .faulted ↔ s.fault.isSome) ∧ ∀ q, s.fault = some q → RecordShape q

theorem recordProper_of_faulted {q : FaultRecord} (hr : s.runState = .faulted) (hf : s.fault = some q)
    (hshape : RecordShape q) : RecordProper s := by
  refine ⟨iff_of_true hr (by rw [hf]; rfl), fun q' hq => ?_⟩
  cases hf.symm.trans hq
  exact hshape

theorem exec_recordProper (hp : RecordProper s) (h : exec i s = .next t) : RecordProper t := by
  rcases faults_or_completes s i with ⟨-, kind, addr, he, hshape⟩ | ⟨-, u, he, hrun, hfault⟩
  · cases he.symm.trans h; exact recordProper_of_faulted rfl rfl hshape
  · cases he.symm.trans h; rw [RecordProper, hrun, hfault]; exact hp

theorem exec_keeps_inv (hi : Inv s) (h : exec i s = .next t) : Inv t := by
  obtain ⟨hpresent, hshape⟩ := exec_recordProper ⟨hi.recordPresent, hi.recordShape⟩ h
  exact ⟨exec_mem_wf hi.memory h, exec_planesAgree hi.presentation h, hpresent, hshape,
    (exec_frameOut h).symm ▸ hi.frame⟩

/-! ### Every step keeps the invariant -/

theorem inv_raise (hi : Inv s) {q : FaultRecord} (hshape : RecordShape q) : Inv (s.raise q) := by
  obtain ⟨hpresent, hq⟩ := recordProper_of_faulted (s := s.raise q) rfl rfl hshape
  exact ⟨hi.memory, hi.presentation, hpresent, hq, hi.frame⟩

theorem inv_setPc (hi : Inv s) (w : Word) : Inv (s.setPc w) :=
  ⟨hi.memory, hi.presentation, hi.recordPresent, hi.recordShape, hi.frame⟩

theorem inv_takeEvent (hi : Inv s) : Inv s.takeEvent :=
  ⟨hi.memory, hi.presentation, hi.recordPresent, hi.recordShape, hi.frame⟩

theorem inv_sample (hi : Inv s) (k : Option Key) : Inv (s.sample k) :=
  ⟨hi.memory, hi.presentation, hi.recordPresent, hi.recordShape, hi.frame⟩

theorem colour_ne_fallback (on : Bool) : colour on ≠ .fallback := by cases on <;> nofun

/-- Under the invariant the snapshot shows no fallback colour, only the colour function's two (R195, R197). -/
theorem snapshot_ne_fallback (hi : Inv s) (y : Fin 32) (x : Fin 64) :
    (s.display.snapshot.get y).get x ≠ .fallback := by
  show s.display.shown y x ≠ _
  rw [hi.presentation]
  exact colour_ne_fallback _

theorem inv_tick (hi : Inv s) : Inv s.tick :=
  ⟨hi.memory, hi.presentation, hi.recordPresent, hi.recordShape, snapshot_ne_fallback hi⟩

/-- A running machine has no fault record, and STOP writes none. -/
theorem inv_stop (hi : Inv s) (hr : s.runState = .running) : Inv s.stop := by
  have hnone : ¬ s.fault.isSome := by rw [← hi.recordPresent, hr]; nofun
  exact ⟨hi.memory, hi.presentation, iff_of_false nofun hnone, hi.recordShape, hi.frame⟩

theorem cycle_keeps_inv (hi : Inv s) (h : s.cycle = .next t) : Inv t := by
  rcases s.cycle_cases with ⟨bad, -, hbad, hc⟩ | ⟨op, e, -, -, -, hc⟩ | ⟨op, i, -, -, -, hc⟩
  · cases hc.symm.trans h; exact inv_raise hi (recordShape_memory hbad)
  · cases hc.symm.trans h; exact inv_raise (inv_setPc hi _) (recordShape_word nofun)
  · exact exec_keeps_inv (inv_setPc hi _) (hc.symm.trans h)

/-- Settles O52: each event of the scheduler keeps the invariant. -/
theorem stepKeepsTheInvariant : Obligations.StepKeepsTheInvariant := by
  intro s t hi h
  obtain ⟨hr, ⟨-, hcycle⟩ | ⟨-, rfl⟩ | ⟨k, -, rfl⟩ | ⟨-, rfl⟩⟩ := step_cases h
  · exact cycle_keeps_inv (inv_takeEvent hi) hcycle
  · exact inv_tick (inv_takeEvent hi)
  · exact inv_sample (inv_takeEvent hi) k
  · exact inv_stop (inv_takeEvent hi) hr

/-! ### The bounds of `pc` and of the return addresses (R25) -/

/-- Every return address in use is at most 0x1000. -/
def ReturnsBounded (s : State) : Prop := ∀ k : Fin 16, k.val < s.sp.val → (s.stack.get k).toNat ≤ 0x1000

theorem returnsBounded_of_same (hb : ReturnsBounded s) (h : t.stack = s.stack ∧ t.sp = s.sp) : ReturnsBounded t := by
  rw [ReturnsBounded, h.1, h.2]; exact hb

/-- CALL pushes the advanced `pc`, at most 0x1000; RET only drops an entry. -/
theorem exec_returnsBounded (hpc : s.pc.toNat ≤ 0x1000) (hb : ReturnsBounded s) (h : exec i s = .next t) :
    ReturnsBounded t := by
  cases i with
  | call nnn =>
    rcases exec_call_cases s nnn with ⟨he, -⟩ | ⟨hsp, he⟩
    · cases he.symm.trans h; exact hb
    · cases he.symm.trans h
      intro k hk
      have hle : k.val < s.sp.val + 1 := hk
      show ((s.stack.set s.sp.val s.pc hsp).get k).toNat ≤ 0x1000
      rw [get_set]
      split
      · exact hpc
      · exact hb k (by omega)
  | ret =>
    rcases exec_ret_cases s with ⟨he, -⟩ | ⟨hsp, he⟩
    · cases he.symm.trans h; exact hb
    · cases he.symm.trans h
      intro k hk
      have hlt : k.val < s.sp.val - 1 := hk
      exact hb k (by omega)
  | _ => exact returnsBounded_of_same hb (exec_stack_of_ne h nofun nofun)

/-- The execute phase leaves `pc` at most 0x10FE: JP V0 reaches furthest, 0xFFF + 0xFF; a skip 0x1002; RET what was
pushed. -/
theorem exec_pc_le (hlow : 2 ≤ s.pc.toNat) (hpc : s.pc.toNat ≤ 0x1000) (hb : ReturnsBounded s)
    (h : exec i s = .next t) : t.pc.toNat ≤ 0x10FE := by
  have hskip : (s.pc + 2).toNat ≤ 0x10FE := by bv_omega
  have hback : (s.pc - 2).toNat ≤ 0x10FE := by bv_omega
  have hjump : ∀ nnn : Addr12, (zext16 nnn).toNat ≤ 0x10FE := fun nnn => by
    have := nnn.isLt
    rw [zext16_toNat]; omega
  have hstay : s.pc.toNat ≤ 0x10FE := by omega
  cases i with
  | seImm | sneImm | seReg | sneReg | skp | sknp => cases h; rw [skipIf_pc]; split <;> assumption
  | jp nnn => cases h; exact hjump nnn
  | jpV0 nnn =>
    have := nnn.isLt
    have := (s.getV 0).isLt
    cases h
    show (zext16 nnn + (s.getV 0).setWidth 16).toNat ≤ 0x10FE
    rw [zext16_add_toNat]
    omega
  | call nnn =>
    rcases exec_call_cases s nnn with ⟨he, -⟩ | ⟨hsp, he⟩
    · cases he.symm.trans h; exact hstay
    · cases he.symm.trans h; exact hjump nnn
  | ret =>
    rcases exec_ret_cases s with ⟨he, -⟩ | ⟨hsp, he⟩
    · cases he.symm.trans h; exact hstay
    · have htop : (s.stack[s.sp.val - 1]'(by omega)).toNat ≤ 0x1000 :=
        hb ⟨s.sp.val - 1, by omega⟩ (Nat.sub_one_lt_of_lt hsp)
      cases he.symm.trans h
      exact htop.trans (by decide)
  | ldXK x => obtain ⟨k, -, he⟩ | ⟨-, he⟩ := exec_ldXK_cases s x <;> (cases he.symm.trans h; assumption)
  | drw x y n => obtain ⟨he, -⟩ | ⟨he, -⟩ := exec_drw_cases s x y n <;> (cases he.symm.trans h; exact hstay)
  | ldB x => obtain ⟨he, -⟩ | ⟨he, -⟩ := exec_ldB_cases s x <;> (cases he.symm.trans h; exact hstay)
  | ldMemX x => obtain ⟨he, -⟩ | ⟨he, -⟩ := exec_ldMemX_cases s x <;> (cases he.symm.trans h; exact hstay)
  | ldXMem x =>
    rcases exec_ldXMem_cases s x with ⟨he, -⟩ | ⟨he, -⟩
    · cases he.symm.trans h; exact hstay
    · cases he.symm.trans h; rw [State.loadRegsFrom_eq]; exact hstay
  | sys | cls | ldImm | addImm | ldReg | orReg | andReg | xorReg | addReg | sub | shr | subn | shl | rnd | ldI | ldXDT
  | ldDTX | ldSTX | addI | ldF => cases h; exact hstay

/-- A whole word at `pc` puts the advanced `pc` between 2 and 0x1000. -/
theorem advanced_pc_bounds (h : s.pc.toNat + 1 < 4096) : 2 ≤ (s.pc + 2).toNat ∧ (s.pc + 2).toNat ≤ 0x1000 := by
  bv_omega

theorem cycle_keeps_pcBounded (hb : PcBounded s) (h : s.cycle = .next t) : PcBounded t := by
  obtain ⟨hpc, hreturns⟩ := hb
  rcases s.cycle_cases with ⟨bad, -, -, hc⟩ | ⟨op, e, -, hin, -, hc⟩ | ⟨op, i, -, hin, -, hc⟩
  · cases hc.symm.trans h; exact ⟨hpc, hreturns⟩
  · cases hc.symm.trans h; exact ⟨(advanced_pc_bounds hin).2.trans (by decide), hreturns⟩
  · obtain ⟨hlow, hhigh⟩ := advanced_pc_bounds hin
    have hexec : exec i (s.setPc (s.pc + 2)) = .next t := hc.symm.trans h
    have hreturns' : ReturnsBounded (s.setPc (s.pc + 2)) := hreturns
    exact ⟨exec_pc_le hlow hhigh hreturns' hexec, exec_returnsBounded hhigh hreturns' hexec⟩

/-- Settles O53: only a CYCLE moves `pc` or the stack, and its execute phase starts from a `pc` of at most 0x1000. -/
theorem stepKeepsPcBounded : Obligations.StepKeepsPcBounded := by
  intro s t hb h
  obtain ⟨-, ⟨-, hcycle⟩ | ⟨-, rfl⟩ | ⟨k, -, rfl⟩ | ⟨-, rfl⟩⟩ := step_cases h
  · exact cycle_keeps_pcBounded (s := s.takeEvent) hb hcycle
  · exact hb
  · exact hb
  · exact hb

/-! ### Reset (R42) -/

theorem reset_getV (r : Reg) : State.reset.getV r = 0 := by
  simp [State.getV, State.reset, Vector.get_eq_getElem]

theorem reset_stack (k : Fin 16) : State.reset.stack.get k = 0 := by
  simp [State.reset, Vector.get_eq_getElem]

/-- Past the font's 80 bytes memory reads as 0 at reset (R42). -/
theorem reset_byteAt_of_le {a : Nat} (h : 80 ≤ a) : State.reset.mem.byteAt a = 0 :=
  (Reset.reset_byteAt a).trans (List.getD_eq_default _ _ h)

/-- Settles O50: every field is read off the reset state. -/
theorem resetIsZeroElsewhere : Obligations.ResetIsZeroElsewhere :=
  ⟨reset_getV, rfl, rfl, reset_stack, rfl, rfl, fun y x => ⟨Display.blank_pixel y x, Display.blank_shown y x⟩, rfl,
    fun _ => reset_byteAt_of_le, rfl, rfl⟩

theorem reset_inv : Inv State.reset where
  memory := Memory.reset_wf
  presentation := planesAgree_blank
  recordPresent := iff_of_false nofun nofun
  recordShape := nofun
  frame y x := by
    show Display.blank.shown y x ≠ _
    rw [Display.blank_shown]; nofun

/-- Settles O54: reset has no memory cell, blank planes, no record, `pc` 0x200 and no return address in use. -/
theorem resetMeetsTheInvariants : Obligations.ResetMeetsTheInvariants :=
  ⟨reset_inv, by decide, fun k hk => absurd hk (Nat.not_lt_zero _)⟩

end Sys2Proof.Proofs.Invariants
end

section
/-! Register arithmetic and logic (spec/42_alu.md): frames in a row, the frame of R141's order of writes, and the result
and flag of each form. -/

namespace Sys2Proof.Proofs.Arithmetic

open Sys2Proof.Machine
open Sys2Proof.Safety
open Sys2Proof.Proofs.Alu
open Sys2Proof.Proofs.Encoding

/-! ### Frames in a row -/

theorem unchanged_refl (parts : List Part) (s : State) : Unchanged parts nothing s s where
  regs _ _ := rfl
  index _ := rfl
  pc _ := rfl
  callStack _ := ⟨rfl, rfl⟩
  delayTimer _ := rfl
  soundTimer _ := rfl
  display _ := rfl
  latch _ := rfl
  runState _ := rfl
  fault _ := rfl
  frameOut _ := rfl
  draws _ := rfl
  pending _ := rfl
  memory _ _ := rfl

/-- Two changes in a row change no part but theirs. -/
theorem unchanged_trans {p q parts : List Part} {stored : Nat → Prop} {s t u : State} (h : Unchanged p stored s t)
    (h' : Unchanged q stored t u) (hp : p ⊆ parts) (hq : q ⊆ parts) : Unchanged parts stored s u where
  regs r hn := (h'.regs r fun hm => hn (hq hm)).trans (h.regs r fun hm => hn (hp hm))
  index hn := (h'.index fun hm => hn (hq hm)).trans (h.index fun hm => hn (hp hm))
  pc hn := (h'.pc fun hm => hn (hq hm)).trans (h.pc fun hm => hn (hp hm))
  callStack hn :=
    have hst := h.callStack fun hm => hn (hp hm)
    have htu := h'.callStack fun hm => hn (hq hm)
    ⟨htu.1.trans hst.1, htu.2.trans hst.2⟩
  delayTimer hn := (h'.delayTimer fun hm => hn (hq hm)).trans (h.delayTimer fun hm => hn (hp hm))
  soundTimer hn := (h'.soundTimer fun hm => hn (hq hm)).trans (h.soundTimer fun hm => hn (hp hm))
  display hn := (h'.display fun hm => hn (hq hm)).trans (h.display fun hm => hn (hp hm))
  latch hn := (h'.latch fun hm => hn (hq hm)).trans (h.latch fun hm => hn (hp hm))
  runState hn := (h'.runState fun hm => hn (hq hm)).trans (h.runState fun hm => hn (hp hm))
  fault hn := (h'.fault fun hm => hn (hq hm)).trans (h.fault fun hm => hn (hp hm))
  frameOut hn := (h'.frameOut fun hm => hn (hq hm)).trans (h.frameOut fun hm => hn (hp hm))
  draws hn := (h'.draws fun hm => hn (hq hm)).trans (h.draws fun hm => hn (hp hm))
  pending hn := (h'.pending fun hm => hn (hq hm)).trans (h.pending fun hm => hn (hp hm))
  memory a hn := (h'.memory a hn).trans (h.memory a hn)

variable (s : State) (x y : Reg)

/-! ### A result, then a flag (R141) -/

theorem unchanged_setResultAndFlag (b : Byte) (c : Bool) :
    Unchanged [.reg x, .reg vF] nothing s (s.setResultAndFlag x b c) :=
  unchanged_trans (unchanged_setV s x b) (unchanged_setV _ vF (flagByte c)) (by simp) (by simp)

theorem setResultAndFlag_result {x : Reg} (b : Byte) (c : Bool) (hx : x ≠ vF) :
    (s.setResultAndFlag x b c).getV x = b := by
  rw [State.setResultAndFlag_getV, if_neg hx, if_pos rfl]

theorem setResultAndFlag_flag (b : Byte) (c : Bool) : (s.setResultAndFlag x b c).getV vF = flagByte c := by
  rw [State.setResultAndFlag_getV, if_pos rfl]

theorem flagByte_decide (p : Prop) [Decidable p] : flagByte (decide p) = if p then 1 else 0 := by
  by_cases h : p <;> simp [flagByte, h]

/-! ### Addition and subtraction (R143, R148, R149, R151) -/

theorem exec_addImm (kk : Byte) : exec (.addImm x kk) s = .next (s.setV x (s.getV x + kk)) := rfl

/-- Settles O8: one write of Vx, VF included when `x = F`. -/
theorem addImmediateWraps : Obligations.AddImmediateWraps := by
  refine fun x kk s => ⟨_, exec_addImm s x kk, ?_, unchanged_setV s x _⟩
  rw [State.getV_setV_self, BitVec.toNat_add]

theorem exec_addReg : exec (.addReg x y) s =
    .next (s.setResultAndFlag x (s.getV x + s.getV y) (carryOut (s.getV x) (s.getV y))) := rfl

/-- Settles O10: the sum wraps at 8 bits, and the carry is written last. -/
theorem addRegistersSetsCarry : Obligations.AddRegistersSetsCarry := by
  refine ⟨rowDecodes_addReg, fun x y s => ⟨_, exec_addReg s x y, fun hx => ?_, ?_, unchanged_setResultAndFlag s x _ _⟩⟩
  · rw [setResultAndFlag_result s _ _ hx, BitVec.toNat_add]
  · rw [setResultAndFlag_flag, carryOut, flagByte_decide]

theorem exec_sub : exec (.sub x y) s =
    .next (s.setResultAndFlag x (wrappedDiff (s.getV x) (s.getV y)) (notBorrow (s.getV x) (s.getV y))) := rfl

theorem exec_subn : exec (.subn x y) s =
    .next (s.setResultAndFlag x (wrappedDiff (s.getV y) (s.getV x)) (notBorrow (s.getV y) (s.getV x))) := rfl

/-- A difference and its not-borrow, whatever the minuend and the subtrahend. -/
theorem setDifference_spec (a b : Byte) :
    (x ≠ vF → ((s.setResultAndFlag x (wrappedDiff a b) (notBorrow a b)).getV x).toNat =
      (a.toNat + 256 - b.toNat) % 256) ∧
    (s.setResultAndFlag x (wrappedDiff a b) (notBorrow a b)).getV vF = (if a.toNat > b.toNat then 1 else 0) ∧
    Unchanged [.reg x, .reg vF] nothing s (s.setResultAndFlag x (wrappedDiff a b) (notBorrow a b)) := by
  refine ⟨fun hx => ?_, ?_, unchanged_setResultAndFlag s x _ _⟩
  · rw [setResultAndFlag_result s _ _ hx, wrappedDiff_toNat]
  · rw [setResultAndFlag_flag, notBorrow, flagByte_decide]

/-- Settles O11: SUB and SUBN are one difference with the operands in either order. -/
theorem subtractFormsSetNotBorrow : Obligations.SubtractFormsSetNotBorrow :=
  ⟨rowDecodes_sub, rowDecodes_subn, fun x y s => ⟨_, exec_sub s x y, setDifference_spec s x _ _⟩,
    fun x y s => ⟨_, exec_subn s x y, setDifference_spec s x _ _⟩⟩

/-! ### The shifts, under either value of `SHIFT_SOURCE` (R150, R152) -/

theorem execShrWith_spec (source : ShiftSource) : ∃ t, execShrWith source x y s = .next t ∧
    (x ≠ vF → (t.getV x).toNat = (s.shiftOperand source x y).toNat / 2) ∧
    (t.getV vF).toNat = (s.shiftOperand source x y).toNat % 2 ∧ Unchanged [.reg x, .reg vF] nothing s t := by
  refine ⟨_, rfl, fun hx => ?_, ?_, unchanged_setResultAndFlag s x _ _⟩
  · rw [setResultAndFlag_result s _ _ hx, BitVec.toNat_ushiftRight, Nat.shiftRight_eq_div_pow, pow_one]
  · rw [setResultAndFlag_flag, lostLow_toNat]

theorem execShlWith_spec (source : ShiftSource) : ∃ t, execShlWith source x y s = .next t ∧
    (x ≠ vF → (t.getV x).toNat = (s.shiftOperand source x y).toNat * 2 % 256) ∧
    (t.getV vF).toNat = (s.shiftOperand source x y).toNat / 128 ∧ Unchanged [.reg x, .reg vF] nothing s t := by
  refine ⟨_, rfl, fun hx => ?_, ?_, unchanged_setResultAndFlag s x _ _⟩
  · rw [setResultAndFlag_result s _ _ hx, BitVec.toNat_shiftLeft, Nat.shiftLeft_eq, pow_one]
  · rw [setResultAndFlag_flag, lostHigh_toNat]

/-- Settles O12: the shifts with Vx as the operand. -/
theorem shiftFormsKeepTheLostBit : Obligations.ShiftFormsKeepTheLostBit :=
  fun x y s => ⟨execShrWith_spec s x y .vx, execShlWith_spec s x y .vx⟩

/-! ### Logic and the random byte (R145 to R147, R153) -/

theorem exec_orReg : exec (.orReg x y) s = .next (s.setV x (s.getV x ||| s.getV y)) := rfl

theorem exec_andReg : exec (.andReg x y) s = .next (s.setV x (s.getV x &&& s.getV y)) := rfl

theorem exec_xorReg : exec (.xorReg x y) s = .next (s.setV x (s.getV x ^^^ s.getV y)) := rfl

/-- Settles O9: each form is one write of Vx, whose bits are those of the operation. -/
theorem logicalForms : Obligations.LogicalForms := by
  refine fun x y s => ⟨⟨_, exec_orReg s x y, unchanged_setV s x _, fun k => ?_⟩,
    ⟨_, exec_andReg s x y, unchanged_setV s x _, fun k => ?_⟩,
    ⟨_, exec_xorReg s x y, unchanged_setV s x _, fun k => ?_⟩⟩
  · rw [State.getV_setV_self, BitVec.getLsbD_or]
  · rw [State.getV_setV_self, BitVec.getLsbD_and]
  · rw [State.getV_setV_self, BitVec.getLsbD_xor]

theorem unchanged_drawRandom : Unchanged [.draws] nothing s s.drawRandom.2 where
  regs _ _ := rfl
  index _ := rfl
  pc _ := rfl
  callStack _ := ⟨rfl, rfl⟩
  delayTimer _ := rfl
  soundTimer _ := rfl
  display _ := rfl
  latch _ := rfl
  runState _ := rfl
  fault _ := rfl
  frameOut _ := rfl
  draws h := absurd (List.mem_singleton_self _) h
  pending _ := rfl
  memory _ _ := rfl

theorem exec_rnd (kk : Byte) :
    exec (.rnd x kk) s = .next (s.drawRandom.2.setV x (Config.draw s.draws &&& kk)) := rfl

/-- Settles O13: one draw, then one write of Vx, in which the mask clears its own 0 bits. -/
theorem randomByteIsMasked : Obligations.RandomByteIsMasked := by
  refine fun x kk s => ⟨_, exec_rnd s x kk, State.getV_setV_self _ x _, rfl, fun k hk => ?_,
    unchanged_trans (unchanged_drawRandom s) (unchanged_setV _ x _) (by simp) (by simp)⟩
  rw [State.getV_setV_self, BitVec.getLsbD_and, hk, Bool.and_false]

end Sys2Proof.Proofs.Arithmetic
end

section
/-! Control transfer (spec/40_control.md), the skips on registers and on the key (spec/41_skips.md,
spec/45_timers_input.md), the index register's arithmetic and the key read. -/

namespace Sys2Proof.Proofs.Transfer

open Sys2Proof.Machine
open Sys2Proof.Safety
open Sys2Proof.Proofs.Control
open Sys2Proof.Proofs.Skips
open Sys2Proof.Proofs.Alu
open Sys2Proof.Proofs.Index
open Sys2Proof.Proofs.Encoding
open Sys2Proof.Proofs.Execute
open Sys2Proof.Proofs.Arithmetic

variable (s : State) (x y : Reg)

/-! ### The skips (R123, R124, R218, R219) -/

theorem exec_seReg : exec (.seReg x y) s = .next (s.skipIf (s.getV x == s.getV y)) := rfl

theorem exec_sneReg : exec (.sneReg x y) s = .next (s.skipIf (s.getV x != s.getV y)) := rfl

/-- Settles O15: families 5 and 9 decode by the family nibble alone, and the execute phase is one skip. -/
theorem skipsOnRegisters : Obligations.SkipsOnRegisters := by
  refine ⟨fun op hf => decodeWord_of_family5 ((fieldF_val op).trans hf),
    fun op hf => decodeWord_of_family9 ((fieldF_val op).trans hf),
    fun x y s => ⟨_, exec_seReg s x y, ?_, unchanged_skipIf s _⟩,
    fun x y s => ⟨_, exec_sneReg s x y, ?_, unchanged_skipIf s _⟩⟩
  · simp only [skipIf_pc, beq_iff_eq]
  · simp only [skipIf_pc, bne_iff_ne, ite_not]

theorem exec_skp : exec (.skp x) s = .next (s.skipIf (s.isPressed (s.getV x))) := rfl

theorem exec_sknp : exec (.sknp x) s = .next (s.skipIf (!s.isPressed (s.getV x))) := rfl

/-- A key that is not latched, or latched with another code, is not pressed (R213, R218). -/
theorem isPressed_eq_false (b : Byte) (h : ∀ k, s.latch = some k → k.toNat ≠ b.toNat) : s.isPressed b = false := by
  rw [Bool.eq_false_iff, ne_eq, State.isPressed_iff]
  rintro ⟨k, hlatch, hk⟩
  exact h k hlatch hk

/-- Settles O16: both skips turn on whether the key of Vx's whole byte is pressed. -/
theorem skipsOnKey : Obligations.SkipsOnKey := by
  refine ⟨fun x s => ⟨_, exec_skp s x, unchanged_skipIf s _, fun hpressed => ?_, fun hother => ?_⟩,
    fun x s => ⟨_, exec_sknp s x, unchanged_skipIf s _, fun hpressed => ?_, fun hother => ?_⟩⟩
  · rw [(s.isPressed_iff _).2 hpressed]; rfl
  · rw [isPressed_eq_false s _ hother]; rfl
  · rw [(s.isPressed_iff _).2 hpressed]; rfl
  · rw [isPressed_eq_false s _ hother]; rfl

/-! ### JP V0 and SYS (R101, R105) -/

theorem exec_jpV0 (nnn : Addr12) :
    exec (.jpV0 nnn) s = .next (s.setPc (zext16 nnn + (s.getV 0).setWidth 16)) := rfl

/-- Settles O18: one write of `pc`, the whole sum. -/
theorem jumpOffsetIsNotMasked : Obligations.JumpOffsetIsNotMasked := by
  refine fun nnn s => ⟨_, exec_jpV0 s nnn, ?_, unchanged_setPc s _⟩
  rw [State.setPc_pc, zext16_add_toNat]

/-- Settles O19: the next state is the same state. -/
theorem sysChangesNothing : Obligations.SysChangesNothing := fun _ s => ⟨s, rfl, unchanged_refl [] s⟩

/-! ### The call stack (R102, R104) -/

theorem unchanged_setStack (e : Vector Word 16) (k : Fin 17) :
    Unchanged [.callStack] nothing s (s.setStack e k) where
  regs r _ := s.setStack_getV e k r
  index _ := s.setStack_i e k
  pc _ := s.setStack_pc e k
  callStack h := absurd (List.mem_singleton_self _) h
  delayTimer _ := s.setStack_dt e k
  soundTimer _ := s.setStack_st e k
  display _ := s.setStack_display e k
  latch _ := s.setStack_latch e k
  runState _ := s.setStack_runState e k
  fault _ := s.setStack_fault e k
  frameOut _ := s.setStack_frameOut e k
  draws _ := s.setStack_draws e k
  pending _ := s.setStack_pending e k
  memory a _ := congrArg (·.byteAt a) (s.setStack_mem e k)

/-- The frame of CALL and RET. -/
theorem unchanged_setStack_setPc (e : Vector Word 16) (k : Fin 17) (w : Word) :
    Unchanged [.pc, .callStack] nothing s ((s.setStack e k).setPc w) :=
  unchanged_trans (unchanged_setStack s e k) (unchanged_setPc _ w) (by simp) (by simp)

/-- Settles O20: CALL writes entry SP, SP and `pc`, or raises on a full stack. -/
theorem callPushesOrFaults : Obligations.CallPushesOrFaults := by
  refine ⟨fun nnn s hsp => ⟨_, exec_call_ok s nnn hsp, ?_, rfl, fun k => ?_, unchanged_setStack_setPc s _ _ _⟩,
    fun nnn s => exec_call_fault s nnn⟩
  · rw [State.setPc_pc, zext16_toNat]
  · rw [State.setPc_stack, State.setStack_stack, get_set]

/-- Settles O21: RET reads entry SP - 1 into `pc` and lowers SP, or raises on an empty stack. -/
theorem returnPopsOrFaults : Obligations.ReturnPopsOrFaults := by
  refine ⟨fun s hsp => ⟨_, exec_ret_ok s hsp, ?_, rfl, fun k hk => ?_, unchanged_setStack_setPc s _ _ _⟩,
    exec_ret_fault⟩
  · exact Nat.sub_add_cancel hsp
  · have htop : s.sp.val - 1 = k.val := by omega
    simp only [State.setPc_pc, Vector.get_eq_getElem, htop]

/-- Settles O22: what CALL pushed stands on top of the stack, and RET takes it off. -/
theorem returnAfterCallComesBack : Obligations.ReturnAfterCallComesBack := by
  intro nnn s t hsp hcall atReturn hspEq hstackEq
  obtain ⟨t', ht', -, hspCall, hstackCall, -⟩ := callPushesOrFaults.1 nnn s hsp
  cases ht'.symm.trans hcall
  have hpos : 0 < atReturn.sp.val := by rw [hspEq]; omega
  obtain ⟨u, hu, hspRet, hstackRet, hpcRet, hframe⟩ := returnPopsOrFaults.1 atReturn hpos
  have hpc : u.pc = s.pc := by
    rw [hpcRet ⟨s.sp.val, hsp⟩ (by rw [hspEq, hspCall]), hstackEq, hstackCall, if_pos rfl]
  have hspBack : u.sp = s.sp := Fin.ext (by rw [hspEq] at hspRet; omega)
  refine ⟨u, hu, hpc, hspBack, fun k hk => ?_, hframe⟩
  rw [hstackRet, hstackEq, hstackCall, if_neg hk]

/-! ### The index register (R172, R173) -/

theorem exec_addI : exec (.addI x) s = .next (s.setI (s.i + (s.getV x).setWidth 16)) := rfl

theorem exec_ldF : exec (.ldF x) s = .next (s.setI (glyphAddress (s.getV x))) := rfl

theorem glyphAddress_toNat (b : Byte) : (glyphAddress b).toNat = b.toNat * 5 := by
  have := b.isLt
  rw [glyphAddress, Config.fontGlyphBytes, BitVec.toNat_ofNat]
  omega

/-- Settles O24: one write of I each. -/
theorem indexArithmetic : Obligations.IndexArithmetic := by
  refine ⟨fun x s => ⟨_, exec_addI s x, ?_, unchanged_setI s _⟩, fun x s => ⟨_, exec_ldF s x, ?_, unchanged_setI s _⟩⟩
  · have := (s.getV x).isLt
    rw [State.setI_i, BitVec.toNat_add, BitVec.toNat_setWidth]
    omega
  · rw [State.setI_i, glyphAddress_toNat]

/-! ### The key read (R220) -/

/-- Settles O37: with a key latched one write of Vx, with none one write of `pc`. -/
theorem keyReadOrRewind : Obligations.KeyReadOrRewind := by
  refine ⟨fun x k s hlatch => ⟨_, exec_ldXK_latched s x hlatch, ?_, unchanged_setV s x _⟩,
    fun x s hlatch => ⟨_, exec_ldXK_none s x hlatch, rfl, unchanged_setPc s _⟩⟩
  rw [State.getV_setV_self, zext8_toNat]

end Sys2Proof.Proofs.Transfer
end

section
/-! Memory (spec/20_memory.md, spec/43_index_memory.md): what a stored block reads as, the block instructions, the
coherence of fetches with stores (R69), the program load (R278) and the font (R38). -/

namespace Sys2Proof.Proofs.Blocks

open Sys2Proof.Machine
open Sys2Proof.Safety
open Sys2Proof.Proofs.Arithmetic
open Sys2Proof.Proofs.AllInstructions
open Sys2Proof.Proofs.Execute

/-- Settles O30: the model's own law of the canonical form. -/
theorem equalBytesAreEqualMemories : Obligations.EqualBytesAreEqualMemories :=
  fun _ _ hm hn h => Memory.eq_of_byteAt hm hn h

/-! ### A stored block -/

section Stored
variable {m : Memory} {a : Nat} {bs : List Byte}

theorem byteAt_putBytes_inside (hw : m.wf) (hend : a + bs.length ≤ 4096) {k : Nat} (hk : k < bs.length) :
    (m.putBytes a bs).byteAt (a + k) = bs[k] := by
  rw [Memory.byteAt_putBytes hw a bs hend, dif_pos ⟨Nat.le_add_right a k, Nat.add_lt_add_left hk a⟩]
  simp only [Nat.add_sub_cancel_left]

theorem byteAt_putBytes_outside (hw : m.wf) (hend : a + bs.length ≤ 4096) {b : Nat} (hb : ¬ bytesAt a bs.length b) :
    (m.putBytes a bs).byteAt b = m.byteAt b :=
  (Memory.byteAt_putBytes hw a bs hend b).trans (dif_neg hb)

end Stored

/-- The frame of an instruction that only stores a block. -/
theorem unchanged_putBytes {s : State} (hw : s.mem.wf) {a : Nat} {bs : List Byte} (hend : a + bs.length ≤ 4096) :
    Unchanged [] (bytesAt a bs.length) s (s.setMem (s.mem.putBytes a bs)) where
  regs r _ := s.setMem_getV _ r
  index _ := s.setMem_i _
  pc _ := s.setMem_pc _
  callStack _ := ⟨s.setMem_stack _, s.setMem_sp _⟩
  delayTimer _ := s.setMem_dt _
  soundTimer _ := s.setMem_st _
  display _ := s.setMem_display _
  latch _ := s.setMem_latch _
  runState _ := s.setMem_runState _
  fault _ := s.setMem_fault _
  frameOut _ := s.setMem_frameOut _
  draws _ := s.setMem_draws _
  pending _ := s.setMem_pending _
  memory _ hb := byteAt_putBytes_outside hw hend hb

variable {s t : State}

/-! ### LD B (R174) -/

/-- The byte of a number below 256. -/
theorem ofNat_byte_toNat {n : Nat} (h : n < 256) : (BitVec.ofNat 8 n).toNat = n :=
  Nat.mod_eq_of_lt h

/-- The three bytes LD B stores, one by one. -/
theorem byteAt_putBytes_bcdDigits (hw : s.mem.wf) (h : s.i.toNat + 2 < 4096) (b : Byte) {k : Nat} (hk : k < 3) :
    (s.mem.putBytes s.i.toNat (bcdDigits b)).byteAt (s.i.toNat + k) = (bcdDigits b)[k]'hk :=
  byteAt_putBytes_inside hw h hk

/-- Settles O25: each digit is below 10, so its byte is the digit. -/
theorem bcdDigitsAreStored : Obligations.BcdDigitsAreStored := by
  intro x s hw h
  have hlt := (s.getV x).isLt
  refine ⟨_, exec_ldB_ok s x h, ?_, ?_, ?_, unchanged_putBytes (bs := bcdDigits (s.getV x)) hw h⟩
  · exact (congrArg _ (byteAt_putBytes_bcdDigits hw h _ (k := 0) (by decide))).trans (ofNat_byte_toNat (by omega))
  · exact (congrArg _ (byteAt_putBytes_bcdDigits hw h _ (k := 1) (by decide))).trans (ofNat_byte_toNat (by omega))
  · exact (congrArg _ (byteAt_putBytes_bcdDigits hw h _ (k := 2) (by decide))).trans (ofNat_byte_toNat (by omega))

/-! ### LD [I], Vx (R175) -/

theorem regsUpTo_end {x : Reg} (h : s.i.toNat + x.val < 4096) : s.i.toNat + (s.regsUpTo x).length ≤ 4096 := by
  rw [State.regsUpTo_length]; exact h

/-- The bytes LD [I], Vx stores, register by register. -/
theorem byteAt_putBytes_regsUpTo (hw : s.mem.wf) {x r : Reg} (h : s.i.toNat + x.val < 4096) (hr : r ≤ x) :
    (s.mem.putBytes s.i.toNat (s.regsUpTo x)).byteAt (s.i.toNat + r.val) = s.getV r := by
  have hk : r.val < (s.regsUpTo x).length := by rw [State.regsUpTo_length]; exact Nat.lt_succ_of_le hr
  rw [byteAt_putBytes_inside hw (regsUpTo_end h) hk, State.regsUpTo_getElem]

/-- Settles O26: the block stored is V0 to Vx. -/
theorem blockStoreWritesRegisters : Obligations.BlockStoreWritesRegisters := by
  intro x s hw h
  have hframe := unchanged_putBytes hw (regsUpTo_end h)
  rw [State.regsUpTo_length] at hframe
  exact ⟨_, exec_ldMemX_ok s x h, fun r hr => byteAt_putBytes_regsUpTo hw h hr, hframe⟩

/-! ### LD Vx, [I] (R176) -/

theorem notMem_regsTo {x r : Reg} (h : Part.reg r ∉ regsTo x) : x < r := by
  simpa [regsTo] using h

/-- The frame of an instruction that only writes registers. -/
theorem unchanged_of_regs {parts : List Part} {v : Vector Byte 16} (ht : t = { s with v := v })
    (hregs : ∀ r, .reg r ∉ parts → t.getV r = s.getV r) : Unchanged parts nothing s t := by
  subst ht
  exact ⟨hregs, fun _ => rfl, fun _ => rfl, fun _ => ⟨rfl, rfl⟩, fun _ => rfl, fun _ => rfl, fun _ => rfl, fun _ => rfl,
    fun _ => rfl, fun _ => rfl, fun _ => rfl, fun _ => rfl, fun _ => rfl, fun _ _ => rfl⟩

theorem unchanged_loadRegsFrom (s : State) (x : Reg) :
    Unchanged (regsTo x) nothing s (State.loadRegsFrom 0 (s.mem.bytesFrom s.i.toNat (x.val + 1)) s) :=
  unchanged_of_regs (State.loadRegsFrom_eq 0 _ s) fun _ hr => getV_loadRegsFrom_of_lt s s.mem (notMem_regsTo hr)

theorem getV_loadRegsFrom_of_le (s : State) {x r : Reg} (hr : r ≤ x) :
    (State.loadRegsFrom 0 (s.mem.bytesFrom s.i.toNat (x.val + 1)) s).getV r =
      s.mem.byteAt (s.i.toNat + r.val) := by
  have hin : 0 ≤ r.val ∧ r.val < 0 + (s.mem.bytesFrom s.i.toNat (x.val + 1)).length := by
    have := Fin.le_def.1 hr
    rw [Memory.bytesFrom_length]; omega
  rw [State.loadRegsFrom_getV, dif_pos hin, Memory.bytesFrom_getElem, Nat.sub_zero]

/-- Settles O27: the registers loaded are V0 to Vx, VF like the others. -/
theorem blockLoadReadsMemory : Obligations.BlockLoadReadsMemory :=
  fun x s h => ⟨_, exec_ldXMem_ok s x h, fun _ hr => getV_loadRegsFrom_of_le s hr, unchanged_loadRegsFrom s x⟩

/-! ### Fetches see stores (R69) -/

/-- A step fetches whatever its two bytes read as, so a memory that reads as `byteAfter` says is seen by every fetch. -/
theorem seenByFetches_of_byteAt {stored : Nat → Option Byte} (h : ∀ a, t.mem.byteAt a = byteAfter stored s a) :
    SeenByFetches stored s t := by
  intro later hr he hp hhigh hlow
  rw [step_fetched hr he hp, hhigh, hlow, h, h]
  rfl

theorem byteAt_bcdStored (hw : s.mem.wf) (x : Reg) (h : s.i.toNat + 2 < 4096) (a : Nat) :
    (s.mem.putBytes s.i.toNat (bcdDigits (s.getV x))).byteAt a = byteAfter (bcdStored s x) s a := by
  unfold byteAfter bcdStored
  split
  · next ha => subst ha; exact byteAt_putBytes_bcdDigits hw h _ (k := 0) (by decide)
  · split
    · next ha => subst ha; exact byteAt_putBytes_bcdDigits hw h _ (k := 1) (by decide)
    · split
      · next ha => subst ha; exact byteAt_putBytes_bcdDigits hw h _ (k := 2) (by decide)
      · have hout : ¬ bytesAt s.i.toNat (bcdDigits (s.getV x)).length a := by
          show ¬ (s.i.toNat ≤ a ∧ a < s.i.toNat + 3)
          omega
        exact byteAt_putBytes_outside hw h hout

theorem byteAt_blockStored (hw : s.mem.wf) (x : Reg) (h : s.i.toNat + x.val < 4096) (a : Nat) :
    (s.mem.putBytes s.i.toNat (s.regsUpTo x)).byteAt a = byteAfter (blockStored s x) s a := by
  unfold byteAfter blockStored
  split
  · next hin =>
    obtain ⟨k, rfl⟩ : ∃ k, a = s.i.toNat + k := ⟨a - s.i.toNat, by omega⟩
    have hk : k ≤ x.val := by omega
    simp only [Nat.add_sub_cancel_left]
    exact byteAt_putBytes_regsUpTo hw (r := ⟨k, Nat.lt_of_le_of_lt hk x.isLt⟩) h hk
  · have hout : ¬ bytesAt s.i.toNat (s.regsUpTo x).length a := by
      rw [State.regsUpTo_length, bytesAt]; omega
    exact byteAt_putBytes_outside hw (regsUpTo_end h) hout

/-- Settles O29: both stores leave memory reading as `byteAfter` says, at every address. -/
theorem storeIsSeenByFetch : Obligations.StoreIsSeenByFetch :=
  ⟨fun x s hw h => ⟨_, exec_ldB_ok s x h, seenByFetches_of_byteAt (byteAt_bcdStored hw x h)⟩,
    fun x s hw h => ⟨_, exec_ldMemX_ok s x h, seenByFetches_of_byteAt (byteAt_blockStored hw x h)⟩⟩

/-! ### The program load (R278) and the font (R38, R272) -/

theorem load_ok (s : State) {program : List Byte} (h : program.length ≤ 3584) :
    s.load program = .next (s.setMem (s.mem.putBytes 0x200 program)) :=
  if_neg (Nat.not_lt_of_le h)

theorem load_refused (s : State) {program : List Byte} (h : 3584 < program.length) :
    s.load program = .refused .programTooLong :=
  if_pos h

/-- Settles O51: a program that fits is one stored block. -/
theorem loadWritesTheProgram : Obligations.LoadWritesTheProgram := by
  refine fun s program hw => ⟨fun hlen => ?_, load_refused s⟩
  have hend : 0x200 + program.length ≤ 4096 := by omega
  exact ⟨_, load_ok s hlen, fun j hj => byteAt_putBytes_inside hw hend hj, unchanged_putBytes hw hend,
    Memory.wf_putBytes hw _ _ hend⟩

/-- A load writes nothing below 0x200. -/
theorem byteAt_of_load {program : List Byte} (hw : s.mem.wf) (h : s.load program = .next t) {a : Nat}
    (ha : a < 0x200) : t.mem.byteAt a = s.mem.byteAt a := by
  rcases Nat.lt_or_ge 3584 program.length with hlong | hfits
  · cases (load_refused s hlong).symm.trans h
  · obtain ⟨u, hu, -, hframe, -⟩ := (loadWritesTheProgram s program hw).1 hfits
    cases hu.symm.trans h
    exact hframe.memory a fun hin => by obtain ⟨hlow, -⟩ := hin; omega

/-- Settles O60: the glyphs are read off the font table, which lies below every load. -/
theorem fontGlyphsStandAtReset : Obligations.FontGlyphsStandAtReset :=
  ⟨rfl, rfl, rfl, rfl, rfl, rfl, rfl, rfl, rfl, rfl, rfl, rfl, rfl, rfl, rfl, rfl,
    fun _ _ h _ ha => byteAt_of_load Memory.reset_wf h (Nat.lt_trans ha (by decide))⟩

/-! ### The alternative policies (R7) -/

theorem execLdMemXWith_ok (s : State) (increments : Bool) (x : Reg) (h : s.i.toNat + x.val < 4096) :
    execLdMemXWith increments x s =
      .next ((s.setMem (s.mem.putBytes s.i.toNat (s.regsUpTo x))).advanceI increments x) :=
  ((execLdMemXWith_cases s increments x).resolve_left fun ⟨_, hout⟩ => by omega).1

theorem execLdXMemWith_ok (s : State) (increments : Bool) (x : Reg) (h : s.i.toNat + x.val < 4096) :
    execLdXMemWith increments x s =
      .next ((State.loadRegsFrom 0 (s.mem.bytesFrom s.i.toNat (x.val + 1)) s).advanceI increments x) :=
  ((execLdXMemWith_cases s increments x).resolve_left fun ⟨_, hout⟩ => by omega).1

/-- Settles O55: the shifts with Vy as the operand, and each block move followed by one write of I. -/
theorem policyAlternatives : Obligations.PolicyAlternatives := by
  refine fun x y s => ⟨execShrWith_spec s x y .vy, execShlWith_spec s x y .vy, fun h =>
    ⟨⟨_, exec_ldMemX_ok s x h, execLdMemXWith_ok s true x h⟩, ⟨_, exec_ldXMem_ok s x h, ?_⟩⟩⟩
  have hindex := (unchanged_loadRegsFrom s x).index (by simp [regsTo])
  rw [execLdXMemWith_ok s true x h, State.advanceI, if_pos rfl, hindex]
  rfl

end Sys2Proof.Proofs.Blocks
end

section
/-! Sprites and the snapshot (spec/44_display.md): drawing a byte twice (R196), DRW (R199) and the colours shown
(R194, R195, R197). -/

namespace Sys2Proof.Proofs.Sprites

open Sys2Proof.Machine
open Sys2Proof.Safety
open Sys2Proof.Proofs.Alu
open Sys2Proof.Proofs.Screen
open Sys2Proof.Proofs.FrameOutput
open Sys2Proof.Proofs.Execute
open Sys2Proof.Proofs.Arithmetic
open Sys2Proof.Proofs.Invariants

/-! ### A byte drawn twice (R196) -/

/-- A pixel that a byte covers is flipped twice, any other is left twice. -/
theorem drawByte_twice_plane (d : Display) (x y : Nat) (b : Byte) :
    ((d.drawByte x y b).1.drawByte x y b).1.plane = d.plane := by
  refine Display.plane_ext fun py px => ?_
  obtain ⟨hflip, hkeep⟩ := d.drawByte_pixel x y b py px
  obtain ⟨hflip', hkeep'⟩ := (d.drawByte x y b).1.drawByte_pixel x y b py px
  by_cases hc : ByteCovers x y b py px
  · rw [hflip' hc, hflip hc, Bool.not_not]
  · rw [hkeep' hc, hkeep hc]

/-- Where the byte has a 1 the second draw finds the pixel flipped by the first. -/
theorem drawByte_twice_erased_iff (d : Display) (x y : Nat) (b : Byte) :
    ((d.drawByte x y b).1.drawByte x y b).2 = true ↔
      ∃ k : Nat, k < 8 ∧ b.getLsbD (7 - k) = true ∧ d.pixel (rowOf y) (columnOf (x + k)) = false := by
  rw [drawByte_erased_iff]
  refine exists_congr fun k => and_congr_right fun hk => and_congr_right fun hbit => ?_
  rw [drawByte_pixel_column d x y b hk, hbit, Bool.xor_true, Bool.not_eq_true']

/-- Settles O33: the plane from flipping twice, the second erase result from the pixels the first draw left. -/
theorem drawingTwiceRestores : Obligations.DrawingTwiceRestores :=
  fun d x y b => ⟨drawByte_twice_plane d x y b, drawByte_erased_iff d x y b, drawByte_twice_erased_iff d x y b⟩

/-! ### DRW (R199) -/

variable (s : State) (x y : Reg) (n : Fin 16)

/-- The pixels the sprite covers are those its rows cover, row `r` being the byte at `I + r`. -/
theorem spriteCovers_iff (py : Fin 32) (px : Fin 64) : spriteCovers s x y n py px ↔
    RowsCover (s.getV x).toNat (s.getV y).toNat (s.mem.bytesFrom s.i.toNat n.val) py px := by
  constructor
  · rintro ⟨r, k, hr, hk, hrow, hcolumn, hbit⟩
    obtain ⟨hrow', hcolumn'⟩ := eq_rowOf_columnOf.2 ⟨hrow, hcolumn⟩
    have hlen : r < (s.mem.bytesFrom s.i.toNat n.val).length := by rw [Memory.bytesFrom_length]; exact hr
    exact ⟨r, k, hlen, hk, hrow', hcolumn', by rw [Memory.bytesFrom_getElem]; exact hbit⟩
  · rintro ⟨r, k, hlen, hk, hrow, hcolumn, hbit⟩
    obtain ⟨hrow', hcolumn'⟩ := eq_rowOf_columnOf.1 ⟨hrow, hcolumn⟩
    rw [Memory.bytesFrom_getElem] at hbit
    exact ⟨r, k, by simpa using hlen, hk, hrow', hcolumn', hbit⟩

/-- The planes and the erase result of a sprite of at most 15 rows. -/
theorem sprite_spec :
    (∀ py px, (spriteCovers s x y n py px → (sprite s x y n).1.pixel py px = !s.display.pixel py px) ∧
      (¬ spriteCovers s x y n py px → (sprite s x y n).1.pixel py px = s.display.pixel py px)) ∧
    ((sprite s x y n).2 = true ↔ ∃ py px, spriteCovers s x y n py px ∧ s.display.pixel py px = true) := by
  simp only [spriteCovers_iff]
  refine Display.drawRows_spec _ ?_ s.display _ _
  rw [Memory.bytesFrom_length]; omega

/-- A sprite erases exactly when a pixel goes from set to clear (R192, R199). -/
theorem sprite_erased_iff : (sprite s x y n).2 = true ↔
    ∃ py px, s.display.pixel py px = true ∧ (sprite s x y n).1.pixel py px = false := by
  obtain ⟨hpixel, herased⟩ := sprite_spec s x y n
  rw [herased]
  refine exists_congr fun py => exists_congr fun px => ?_
  obtain ⟨hflip, hkeep⟩ := hpixel py px
  by_cases hc : spriteCovers s x y n py px
  · rw [hflip hc, Bool.not_eq_false']
    exact ⟨fun h => ⟨h.2, h.2⟩, fun h => ⟨hc, h.1⟩⟩
  · rw [hkeep hc]
    exact ⟨fun h => absurd h.1 hc, fun ⟨hset, hclear⟩ => by rw [hset] at hclear; cases hclear⟩

/-- Settles O34: the drawn planes, then VF as the erase result. -/
theorem drawSpriteFlipsCoveredPixels : Obligations.DrawSpriteFlipsCoveredPixels := by
  intro x y n s h
  have herased := sprite_erased_iff s x y n
  refine ⟨_, exec_drw_ok s x y n h, (sprite_spec s x y n).1, Display.drawRows_presentation _ _ _ _, fun hset => ?_,
    fun hset => ?_, unchanged_trans (unchanged_setDisplay s _) (unchanged_setV _ vF _) (by simp) (by simp)⟩
  · rw [herased.2 hset]; exact State.getV_setV_self _ vF _
  · rw [Bool.eq_false_iff.2 (mt herased.1 hset)]; exact State.getV_setV_self _ vF _

/-! ### The snapshot (R194, R195, R197) -/

/-- Settles O35: under the invariant the snapshot shows the colour function's colours. -/
theorem snapshotShowsThePlane : Obligations.SnapshotShowsThePlane := by
  refine fun s hi y x => ⟨snapshot_word_eq_zero_iff hi y x, fun hon => ?_, snapshot_ne_fallback hi y x⟩
  have hcolour : (s.display.snapshot.get y).get x = colour (s.display.pixel y x) := hi.presentation y x
  rw [hcolour, hon]
  rfl

end Sys2Proof.Proofs.Sprites
end

section
/-! Runs of the scheduler while the CPU waits for a key (spec/45_timers_input.md R220, spec/60_exceptions.md R250 to
R258): idle events move the timers only, a sampled key ends the wait, and fair ticks run the delay timer down. -/

namespace Sys2Proof.Proofs.Waiting

open Sys2Proof.Machine
open Sys2Proof.Safety
open Sys2Proof.Proofs.Control
open Sys2Proof.Proofs.Alu
open Sys2Proof.Proofs.Timers
open Sys2Proof.Proofs.Reset
open Sys2Proof.Proofs.Encoding
open Sys2Proof.Proofs.Execute
open Sys2Proof.Proofs.Arithmetic

variable {s t u : State} {x : Reg} {k m n : Nat}

/-! ### Runs of any machine behind the host's interface, step by step -/

section Runs
variable {M : Host.Core} {a b : M.State}

theorem run_succ (h : M.step a = .next b) : M.run (n + 1) a = M.run n b := by
  rw [Host.Core.run, h]

/-- A run that has answered a state goes on from it. -/
theorem run_add (h : M.run m a = .next b) : M.run (m + n) a = M.run n b := by
  induction m generalizing a with
  | zero => cases h; rw [Nat.zero_add]
  | succ m ih =>
    cases hstep : M.step a with
    | next c =>
      rw [run_succ hstep] at h
      rw [Nat.add_right_comm, run_succ hstep, ih h]
    | fault r => rw [Host.Core.run, hstep] at h; cases h
    | refused r => rw [Host.Core.run, hstep] at h; cases h

end Runs

/-! ### One step of a waiting CPU -/

theorem unchanged_takeEvent (s : State) : Unchanged [.pending] nothing s s.takeEvent where
  regs r _ := s.takeEvent_getV r
  index _ := s.takeEvent_i
  pc _ := s.takeEvent_pc
  callStack _ := ⟨s.takeEvent_stack, s.takeEvent_sp⟩
  delayTimer _ := s.takeEvent_dt
  soundTimer _ := s.takeEvent_st
  display _ := s.takeEvent_display
  latch _ := s.takeEvent_latch
  runState _ := s.takeEvent_runState
  fault _ := s.takeEvent_fault
  frameOut _ := s.takeEvent_frameOut
  draws _ := s.takeEvent_draws
  pending h := absurd (List.mem_singleton_self _) h
  memory a _ := congrArg (·.byteAt a) s.takeEvent_mem

/-- The CPU at an FX0A executes it (R220). -/
theorem step_at_ldXK (hr : s.runState = .running) (he : s.nextEvent = .cycle)
    (hfetch : fetchWord s.mem s.pc.toNat = .ok (encodeWord (.ldXK x))) :
    step s = exec (.ldXK x) (s.takeEvent.setPc (s.pc + 2)) :=
  step_executes hr he hfetch (decodeWord_encodeWord rfl)

/-- A cycle of a waiting CPU takes `pc` back to where it was. -/
theorem step_waiting_cycle (hr : s.runState = .running) (he : s.nextEvent = .cycle) (hw : WaitingForKey s x) :
    step s = .next s.takeEvent := by
  obtain ⟨hfetch, hlatch⟩ := hw
  have hback : s.pc + 2 - 2 = s.pc := BitVec.add_sub_cancel s.pc 2
  rw [step_at_ldXK hr he hfetch, exec_ldXK_none (s.takeEvent.setPc (s.pc + 2)) x hlatch, State.setPc_pc, hback]
  rfl

/-- An empty sample leaves an empty latch as it is. -/
theorem step_waiting_sample (hr : s.runState = .running) (he : s.nextEvent = .sample none) (hw : WaitingForKey s x) :
    step s = .next s.takeEvent := by
  obtain ⟨-, hlatch⟩ := hw
  have hsame : s.takeEvent.sample none = s.takeEvent := by rw [State.sample, ← hlatch]; rfl
  rw [step_sample hr he, hsame]

/-! ### Idle runs -/

/-- From `s` to `t` the CPU has gone on waiting at the same FX0A through `ticks` ticks: the timers have counted down and
the frame and the schedule have moved on, nothing else. -/
structure Waited (x : Reg) (ticks : Nat) (s t : State) : Prop where
  waiting : WaitingForKey t x
  delay : t.dt.toNat = s.dt.toNat - ticks
  sound : t.st.toNat = s.st.toNat - ticks
  frame : Unchanged [.delayTimer, .soundTimer, .frameOut, .pending] nothing s t

theorem waited_zero (hw : WaitingForKey s x) : Waited x 0 s s := ⟨hw, rfl, rfl, unchanged_refl _ s⟩

theorem waited_trans (h : Waited x m s t) (h' : Waited x n t u) : Waited x (m + n) s u where
  waiting := h'.waiting
  delay := by rw [h'.delay, h.delay, Nat.sub_sub]
  sound := by rw [h'.sound, h.sound, Nat.sub_sub]
  frame := unchanged_trans h.frame h'.frame (List.Subset.refl _) (List.Subset.refl _)

theorem waited_running (h : Waited x n s t) (hr : s.runState = .running) : t.runState = .running :=
  (h.frame.runState (by simp)).trans hr

theorem waited_takeEvent (hw : WaitingForKey s x) : Waited x 0 s s.takeEvent where
  waiting := hw
  delay := rfl
  sound := rfl
  frame := unchanged_trans (unchanged_refl [] s) (unchanged_takeEvent s) (by simp) (by simp)

theorem waited_tick (hw : WaitingForKey s x) : Waited x 1 s s.takeEvent.tick where
  waiting := hw
  delay := decrementTimer_toNat s.dt
  sound := decrementTimer_toNat s.st
  frame := unchanged_takeEvent_tick s

/-- One idle event: a cycle or an empty sample only takes the event off the schedule, a tick counts 1. -/
theorem step_idle {e : Event} {rest : List Event} (hr : s.runState = .running) (hw : WaitingForKey s x) (he : Idle e)
    (hp : s.pending = e :: rest) :
    ∃ t, step s = .next t ∧ t.pending = rest ∧ Waited x (if e = .tick then 1 else 0) s t := by
  have hnext : s.nextEvent = e := by rw [State.nextEvent, hp]; rfl
  have htail : s.pending.tail = rest := by rw [hp]; rfl
  cases e with
  | cycle => exact ⟨_, step_waiting_cycle hr hnext hw, htail, waited_takeEvent hw⟩
  | tick => exact ⟨_, step_tick hr hnext, htail, waited_tick hw⟩
  | sample k =>
    cases k with
    | none => exact ⟨_, step_waiting_sample hr hnext hw, htail, waited_takeEvent hw⟩
    | some k => exact he.elim
  | stop => exact he.elim

/-- Any run of idle events, with what is scheduled after it still to come. -/
theorem run_idle {events rest : List Event} (hr : s.runState = .running) (hw : WaitingForKey s x)
    (hidle : ∀ e ∈ events, Idle e) (hp : s.pending = events ++ rest) :
    ∃ t, Sys2Proof.core.run events.length s = .next t ∧ t.pending = rest ∧ Waited x (events.count .tick) s t := by
  induction events generalizing s with
  | nil => exact ⟨s, rfl, hp, waited_zero hw⟩
  | cons e events ih =>
    obtain ⟨he, hidle'⟩ := List.forall_mem_cons.1 hidle
    obtain ⟨t, hstep, hpending, hfirst⟩ := step_idle hr hw he hp
    obtain ⟨u, hrun, hrest, hlater⟩ := ih (waited_running hfirst hr) hfirst.waiting hidle' hpending
    refine ⟨u, (run_succ hstep).trans hrun, hrest, ?_⟩
    rw [List.count_cons, Nat.add_comm]
    simpa only [beq_iff_eq] using waited_trans hfirst hlater

/-- Settles O57: the run of all that is scheduled. -/
theorem waitingBlocksNothing : Obligations.WaitingBlocksNothing := by
  intro s x events hr hw hidle hp
  obtain ⟨t, hrun, -, hwaited⟩ := run_idle (rest := []) hr hw hidle (hp.trans (List.append_nil events).symm)
  exact ⟨t, hrun, hwaited.waiting, hwaited.delay, hwaited.sound, hwaited.frame⟩

/-! ### A sampled key -/

/-- The SAMPLE of a key and the CYCLE after it: FX0A finds the key and moves on. -/
theorem run_sample_cycle {key : Key} (hr : s.runState = .running) (hw : WaitingForKey s x)
    (hp : s.pending = [.sample (some key), .cycle]) :
    ∃ t, Sys2Proof.core.run 2 s = .next t ∧ t.getV x = zext8 key ∧ t.pc = s.pc + 2 ∧ t.latch = some key ∧
      Unchanged [.reg x, .pc, .latch, .pending] nothing s t := by
  obtain ⟨hfetch, -⟩ := hw
  have hfirst : s.nextEvent = .sample (some key) := by rw [State.nextEvent, hp]; rfl
  have hsecond : (s.takeEvent.sample (some key)).nextEvent = .cycle := by
    rw [State.nextEvent, State.sample_pending, State.takeEvent_pending, hp]; rfl
  have hcycle := step_at_ldXK (s := s.takeEvent.sample (some key)) hr hsecond hfetch
  rw [exec_ldXK_latched _ x rfl] at hcycle
  have hsample := unchanged_takeEvent_sample s (some key)
  have hadvance := unchanged_trans (parts := [.pending, .pc])
    (unchanged_takeEvent (s.takeEvent.sample (some key))) (unchanged_setPc _ (s.pc + 2)) (by simp) (by simp)
  have hmoved := unchanged_trans (parts := [.latch, .pending, .pc]) hsample hadvance (by simp) (by simp)
  exact ⟨_, (run_succ (step_sample hr hfirst)).trans (run_succ hcycle), State.getV_setV_self _ x _, rfl, rfl,
    unchanged_trans hmoved (unchanged_setV _ x _) (by simp) (by simp)⟩

/-- Settles O58: the idle run, then the sample and the cycle. -/
theorem sampledKeyEndsTheWait : Obligations.SampledKeyEndsTheWait := by
  intro s x key events hr hw hidle hp
  obtain ⟨t, hrun, hpending, hwaited⟩ := run_idle hr hw hidle hp
  obtain ⟨u, hrun', hkey, hpc, hlatch, hframe⟩ :=
    run_sample_cycle (waited_running hwaited hr) hwaited.waiting hpending
  have hsame : t.pc = s.pc := hwaited.frame.pc (by simp)
  exact ⟨u, (run_add hrun).trans hrun', by rw [hkey, zext8_toNat], by rw [hpc, hsame], hlatch,
    unchanged_trans hwaited.frame hframe (by simp) (by simp)⟩

/-! ### Fair schedules (R253) -/

/-- The first `n` events of a schedule. -/
def firstEvents (schedule : Nat → Event) (n : Nat) : List Event := (List.range n).map schedule

theorem count_firstEvents_mono (schedule : Nat → Event) (e : Event) (h : m ≤ n) :
    (firstEvents schedule m).count e ≤ (firstEvents schedule n).count e :=
  ((List.range_sublist.2 h).map schedule).count_le e

theorem count_firstEvents_succ {schedule : Nat → Event} {e : Event} (h : schedule n = e) :
    (firstEvents schedule (n + 1)).count e = (firstEvents schedule n).count e + 1 := by
  simp [firstEvents, List.range_succ, h]

/-- A fair schedule brings any number of ticks. -/
theorem exists_ticks {schedule : Nat → Event} (hfair : Fair schedule) (k : Nat) :
    ∃ n, k ≤ (firstEvents schedule n).count .tick := by
  induction k with
  | zero => exact ⟨0, Nat.zero_le _⟩
  | succ k ih =>
    obtain ⟨n, hn⟩ := ih
    obtain ⟨-, ⟨m, hm, htick⟩, -⟩ := hfair n
    refine ⟨m + 1, ?_⟩
    rw [count_firstEvents_succ htick]
    exact Nat.succ_le_succ (hn.trans (count_firstEvents_mono schedule .tick hm))

/-- Settles O59: an idle run with as many ticks as the delay timer counts. -/
theorem fairTicksExpireTheTimer : Obligations.FairTicksExpireTheTimer := by
  intro schedule s x hfair hidle hr hw
  obtain ⟨n, hn⟩ := exists_ticks hfair s.dt.toNat
  have hevents : ∀ e ∈ firstEvents schedule n, Idle e := by
    intro e he
    obtain ⟨j, -, rfl⟩ := List.mem_map.1 he
    exact hidle j
  obtain ⟨t, hrun, -, hwaited⟩ :=
    run_idle (s := { s with pending := firstEvents schedule n }) (rest := []) hr hw hevents (List.append_nil _).symm
  have hlen : (firstEvents schedule n).length = n := by simp [firstEvents]
  have hzero : t.dt.toNat = 0 := hwaited.delay.trans (Nat.sub_eq_zero_of_le hn)
  rw [hlen] at hrun
  exact ⟨n, t, hrun, BitVec.eq_of_toNat_eq hzero, hwaited.frame.pc (by simp), hwaited.waiting⟩

end Sys2Proof.Proofs.Waiting
end
